-- ==== Sys2Proof/Syntax.lean ====
section
/-!
DEFINITION. The commands of the core, one constructor per row of spec/opcode_table.json (R112), and the two
command ports (R110).
-/

namespace Sys2Proof

/-- The two command ports, one per unit (R110). -/
inductive Port where
  | reader
  | writer
  deriving DecidableEq, Repr

/-- The commands (R112). An operand is an integer, as at the spec's abstract interface (R113, R114, R151, R211);
the encoding carries 0 to 255, which `Instr.wellFormed` says (DESIGN CHOICE, safe, log 10). -/
inductive Instr where
  /-- `R.NEW t`: construct the reader with trash-bit count t (R151). -/
  | rNew (t : Int)
  /-- `R.READ`: surface the next bit of the stream (R160). -/
  | rRead
  /-- `W.NEW`: construct the writer (R201). -/
  | wNew
  /-- `W.WRITE v`: accept one bit, 1 exactly when v is nonzero (R211). -/
  | wWrite (v : Int)
  /-- `W.FLUSH`: push the pending partial byte, zero-padded (R221). -/
  | wFlush
  /-- `W.COUNT`: return the number of accepted bits (R231). -/
  | wCount
  deriving DecidableEq, Repr

/-- The port that accepts a command (R112). -/
def Instr.port : Instr → Port
  | .rNew _ => .reader
  | .rRead => .reader
  | .wNew => .writer
  | .wWrite _ => .writer
  | .wFlush => .writer
  | .wCount => .writer

/-- The assembler name of a command, as the opcode table spells it (R112). -/
def Instr.mnemonic : Instr → String
  | .rNew _ => "R.NEW"
  | .rRead => "R.READ"
  | .wNew => "W.NEW"
  | .wWrite _ => "W.WRITE"
  | .wFlush => "W.FLUSH"
  | .wCount => "W.COUNT"

end Sys2Proof
end

