-- ==== Sys2Proof/WellFormed.lean ====
section
/-!
DEFINITION. Which commands have an encoding: an operand is an unsigned number 0 to 255 (R111, R113, R120).
-/

namespace Sys2Proof

/-- An operand the 8-bit ARG field can carry; the assembler refuses any other (R120). -/
def fitsArg (x : Int) : Bool := decide (0 ≤ x ∧ x ≤ 255)

/-- A command that a 16-bit word can carry (R113, R114, R115). -/
def Instr.wellFormed : Instr → Bool
  | .rNew t => fitsArg t
  | .rRead => true
  | .wNew => true
  | .wWrite v => fitsArg v
  | .wFlush => true
  | .wCount => true

end Sys2Proof
end

