-- ==== Sys2Proof/Word.lean ====
section
/-!
DEFINITION. The bit vectors of the core: the byte of a stream, the command word and the bit cursor.
-/

namespace Sys2Proof

/-- A byte of a stream: 8 bits, bit 7 the most significant (R7, R74). -/
abbrev Byte := BitVec 8

/-- A command word on a unit's command port: 16 bits (R110, R111). -/
abbrev Word := BitVec 16

/-- A bit cursor: a position 0 to 7 in a byte, with explicit wrap-around (R37, R41). Counting down from 0
gives 7, which is subtraction modulo 2^3. -/
abbrev Cursor := BitVec 3

end Sys2Proof
end

