-- ==== Sys2Proof/Decode.lean ====
section
/-!
DEFINITION. The command word: its fields (R111), the decoder of each port (R123), the encoder, and the
opcode map as rows of mask and match (R112).
-/

namespace Sys2Proof

/-- Why a word is illegal on a port (R116). All four have the same effect there. -/
inductive IllegalWord where
  /-- RSV is not 0000. -/
  | reservedBits
  /-- The word's OP[3] selects the other unit. -/
  | wrongPort
  /-- OP is one of this unit's reserved values. -/
  | reservedOp
  /-- ARG is not 0x00 in a command without an operand. -/
  | operandNotZero
  deriving DecidableEq, Repr

/-- OP, bits 15:12 (R111). -/
def opOf (w : Word) : BitVec 4 := w.extractLsb' 12 4

/-- RSV, bits 11:8 (R111). -/
def rsvOf (w : Word) : BitVec 4 := w.extractLsb' 8 4

/-- ARG, bits 7:0 (R111). -/
def argOf (w : Word) : BitVec 8 := w.extractLsb' 0 8

/-- The unit that a word selects: OP[3], 0 for the reader and 1 for the writer (R111). -/
def portOf (w : Word) : Port := if w.getLsbD 15 then .writer else .reader

/-- `zext_8(ARG)` as an operand (R113, R114). -/
def operandOf (w : Word) : Int := ((argOf w).toNat : Int)

/-- A command that takes no operand needs ARG = 0x00 (R115). -/
def withoutOperand (w : Word) (i : Instr) : Except IllegalWord Instr :=
  if argOf w = 0x00#8 then .ok i else .error .operandNotZero

/-- The reader port's commands by OP (R123). -/
def decodeReader (w : Word) : Except IllegalWord Instr :=
  if opOf w = 0b0001#4 then .ok (.rNew (operandOf w))
  else if opOf w = 0b0010#4 then withoutOperand w .rRead
  else .error (if portOf w = .reader then .reservedOp else .wrongPort)

/-- The writer port's commands by OP (R123). -/
def decodeWriter (w : Word) : Except IllegalWord Instr :=
  if opOf w = 0b1000#4 then withoutOperand w .wNew
  else if opOf w = 0b1001#4 then .ok (.wWrite (operandOf w))
  else if opOf w = 0b1010#4 then withoutOperand w .wFlush
  else if opOf w = 0b1011#4 then withoutOperand w .wCount
  else .error (if portOf w = .writer then .reservedOp else .wrongPort)

/-- The decoder of a port, total on every word (R123). -/
def decode (p : Port) (w : Word) : Except IllegalWord Instr :=
  if rsvOf w ≠ 0b0000#4 then .error .reservedBits
  else match p with
    | .reader => decodeReader w
    | .writer => decodeWriter w

/-- An operand as the ARG field's bits (R111). -/
def argBits (x : Int) : Word := (BitVec.ofInt 8 x).setWidth 16

/-- The word of a command (R112, R151, R211); meant for well-formed commands. -/
def encode : Instr → Word
  | .rNew t => 0x1000#16 ||| argBits t
  | .rRead => 0x2000#16
  | .wNew => 0x8000#16
  | .wWrite v => 0x9000#16 ||| argBits v
  | .wFlush => 0xA000#16
  | .wCount => 0xB000#16

/-- A row of the opcode map (R112). -/
structure OpcodeRow where
  mnemonic : String
  port : Port
  pattern : Word
  mask : Word
  deriving DecidableEq, Repr

/-- The opcode map (R112). -/
def opcodeRows : List OpcodeRow :=
  [ ⟨"R.NEW", .reader, 0x1000, 0xFF00⟩,
    ⟨"R.READ", .reader, 0x2000, 0xFFFF⟩,
    ⟨"W.NEW", .writer, 0x8000, 0xFFFF⟩,
    ⟨"W.WRITE", .writer, 0x9000, 0xFF00⟩,
    ⟨"W.FLUSH", .writer, 0xA000, 0xFFFF⟩,
    ⟨"W.COUNT", .writer, 0xB000, 0xFFFF⟩ ]

/-- "A word w encodes a row exactly when `(w & mask) == match`" (R112). -/
def OpcodeRow.covers (r : OpcodeRow) (w : Word) : Bool := w &&& r.mask == r.pattern

/-- The words that are legal on a port: those that a row of that port covers (R112, R116). -/
def legalOn (p : Port) (w : Word) : Bool :=
  opcodeRows.any fun r => decide (r.port = p) && r.covers w

/-- What the decoder reads from a table row's word, on the port that its OP[3] selects (R111, R112). -/
def decodeTableWord (nbits w : Nat) : Option Instr :=
  if w % 2 ^ nbits < 2 ^ 16 then
    let word : Word := BitVec.ofNat 16 (w % 2 ^ nbits)
    match decode (portOf word) word with
    | .ok i => some i
    | .error _ => none
  else none

end Sys2Proof
end

