-- ==== Sys2Proof/Config.lean ====
section
/-!
DEFINITION. What an implementation of the core fixes (R6): the width of the bit counter, the legal trash
counts, and the width of an I/O error token.
-/

namespace Sys2Proof

/-- COUNT_WIDTH (R6, D9), at the default the spec gives it. DESIGN CHOICE, unsafe for an instance built with
another width (log 2). -/
abbrev Config.countWidth : Nat := 64

/-- TRASH_MAX (R6): the legal trash-bit counts are 0 to this. -/
abbrev Config.trashMax : Nat := 7

/-- ERR_WIDTH (R6, D10): the width of an error token, which the spec leaves open. It has no body, so no proof
can learn it (log 3). -/
opaque Config.errWidth : Nat

/-- The bit counter's value (R39). -/
abbrev Count := BitVec Config.countWidth

/-- ErrToken (R6, D10): the error value of a source or sink, copied verbatim and never inspected (R252). -/
abbrev ErrToken := BitVec Config.errWidth

end Sys2Proof
end

