-- ==== Sys2Proof/Machine/State.lean ====
section
/-!
DEFINITION. The state of the core (R33 to R42), the commands in progress, the ports as the outside world sees
them, the response (R118) and the state after power-on reset (R290). Plain data throughout.
-/

namespace Sys2Proof.Machine

/-- RSTATE, the reader's lifecycle state (R33). Encoding 3 is never written and is left out. -/
inductive ReaderState where
  | unconstructed
  | active
  | faulted
  deriving DecidableEq, Repr

/-- WSTATE, the writer's lifecycle state (R38). -/
inductive WriterState where
  | unconstructed
  | active
  deriving DecidableEq, Repr

/-- Which pull an R.READ in progress is waiting for (R75, R160). -/
inductive PullWait where
  /-- The first pull of a load (R164). -/
  | firstPull
  /-- The look-ahead pull, with CUR already established (R165). -/
  | lookAhead
  deriving DecidableEq, Repr

/-- The registers of the reader unit (R33 to R37) and its command in progress (R75, R300). -/
structure ReaderUnit where
  /-- RSTATE (R33). -/
  rstate : ReaderState
  /-- TRASH, the trash-bit count (R34). -/
  trash : BitVec 3
  /-- CUR, the byte being decomposed (R35). -/
  cur : Byte
  /-- LA, the look-ahead byte (R36). -/
  la : Byte
  /-- LAV, set while LA holds a byte (R36). -/
  lav : Bool
  /-- RCUR, the bit cursor (R37). -/
  rcur : Cursor
  /-- The pull that a command in progress is blocked on, if there is one (R75, R269). -/
  pending : Option PullWait
  deriving DecidableEq, Repr

/-- The registers of the writer unit (R38 to R42) and its command in progress (R75, R300). -/
structure WriterUnit where
  /-- WSTATE (R38). -/
  wstate : WriterState
  /-- COUNT, the accepted bits (R39). -/
  count : Count
  /-- SCR, the byte being filled (R40). -/
  scr : Byte
  /-- WCUR, the bit cursor (R41). -/
  wcur : Cursor
  /-- SEALED, set once a flush has pushed a partial byte (R42). -/
  sealed : Bool
  /-- The byte of the push that a command in progress is blocked on, if there is one (R75, R269). -/
  pending : Option Byte
  deriving DecidableEq, Repr

/-- The byte source's answer to a pull (R11, R72). -/
inductive PullAnswer where
  | byte (b : Byte)
  | exhausted
  | failed (e : ErrToken)
  deriving DecidableEq, Repr

/-- The byte sink's answer to a push (R11, R72). -/
inductive PushAnswer where
  | ok
  | failed (e : ErrToken)
  deriving DecidableEq, Repr

/-- The byte-source port: the model's own fields (log 4). -/
structure SourcePort where
  /-- The answers that the source holds ready for the pulls to come, the next one first (R77). -/
  answers : List PullAnswer
  /-- How many pulls the reader has issued (R73, R80, R168). -/
  pulls : Nat
  deriving DecidableEq, Repr

/-- The byte-sink port: the model's own fields (log 4). -/
structure SinkPort where
  /-- The answers that the sink holds ready for the pushes to come, the next one first (R77). -/
  answers : List PushAnswer
  /-- The bytes that the writer has pushed, the first one first (R70, R72). -/
  pushed : List Byte
  deriving DecidableEq, Repr

/-- STATUS (R119). -/
inductive Status where
  | ok
  | exhausted
  | ioError
  | preconditionViolation
  | misuse
  | illegalCommand
  | noInstance
  deriving DecidableEq, Repr

/-- A response, as the sum type that R118 offers. A field that the command does not define is 0 (D16). -/
inductive Response where
  /-- OK, with the BIT and COUNT fields. -/
  | ok (bit : Bool) (count : Count)
  /-- EXHAUSTED (R251). -/
  | exhausted
  /-- IO_ERROR with the token, verbatim (R252). -/
  | ioError (e : ErrToken)
  /-- PRECONDITION_VIOLATION (R253). -/
  | preconditionViolation
  /-- MISUSE (R254). -/
  | misuse
  /-- ILLEGAL_COMMAND (R255). -/
  | illegalCommand
  /-- NO_INSTANCE (R256). -/
  | noInstance
  deriving DecidableEq, Repr

/-- What the outside world does to the core: the model's own type (log 5). -/
inductive Input where
  /-- A caller offers a command word on a port (R110). -/
  | command (p : Port) (w : Word)
  /-- The byte source answers the outstanding pull (R72, R75). -/
  | pullAnswer (a : PullAnswer)
  /-- The byte sink answers the outstanding push (R72, R75). -/
  | pushAnswer (a : PushAnswer)
  /-- Power-on reset (R290, R293). -/
  | powerOnReset
  deriving DecidableEq, Repr

/-- The core and its ports. The core's own registers are in `reader` and `writer` (R30, R2). -/
structure State where
  reader : ReaderUnit
  writer : WriterUnit
  source : SourcePort
  sink : SinkPort
  /-- The responses delivered on the reader's response port, the first one first (R110, R118). -/
  readerOut : List Response
  /-- The responses delivered on the writer's response port, the first one first (R110, R118). -/
  writerOut : List Response
  /-- What the outside world has offered and the core has not yet taken, the oldest first (R110, R300). -/
  inputs : List Input
  deriving DecidableEq, Repr

/-- The core has no fault: every outcome is the status of a response (R250, R258), and a transaction that is
never answered hangs one unit without stopping the other (R75, R85). So there is no constructor. -/
inductive Fault : Type where
  deriving DecidableEq, Repr

/-- Why the model has no meaning for a command. -/
inductive Refusal where
  /-- Raised by an arm of `exec` whose instruction has no meaning yet; safe, the run stops. No arm does now. -/
  | notModelled (mnemonic : String)
  deriving DecidableEq, Repr

/-- The reader unit after power-on reset. R290 gives RSTATE; the other registers are unspecified there and 0
here (DESIGN CHOICE, unsafe, log 1). -/
def ReaderUnit.reset : ReaderUnit :=
  { rstate := .unconstructed, trash := 0#3, cur := 0x00#8, la := 0x00#8, lav := false, rcur := 0#3, pending := none }

/-- The writer unit after power-on reset. R290 gives WSTATE; the other registers are unspecified there and 0
here (DESIGN CHOICE, unsafe, log 1). -/
def WriterUnit.reset : WriterUnit :=
  { wstate := .unconstructed, count := 0, scr := 0x00#8, wcur := 0#3, sealed := false, pending := none }

/-- The core after power-on reset (R290, R292), with no transaction made, no response delivered and nothing
offered by the outside world (log 4, log 5). -/
def State.reset : State :=
  { reader := ReaderUnit.reset, writer := WriterUnit.reset
    source := { answers := [], pulls := 0 }, sink := { answers := [], pushed := [] }
    readerOut := [], writerOut := [], inputs := [] }

end Sys2Proof.Machine
end

