-- ==== Sys2Proof/Machine/Operands.lean ====
section
/-!
DEFINITION. Operands and the arithmetic of the commands: a bit of a byte (R7), the cursor's count down
(R37, R41), the bit counter's count up (R39), the trash count (R113, R151) and the bit to write (R210).
-/

namespace Sys2Proof.Machine

/-- `b[i]`, bit i of the byte b (R7). -/
def bitAt (b : Byte) (i : Cursor) : Bool := b.getLsbD i.toNat

/-- `b[i] <- 1`: bit i set and every other bit unchanged (R7). -/
def setBit (b : Byte) (i : Cursor) : Byte := b ||| (1#8 <<< i.toNat)

/-- The cursor one position lower; 0 wraps to 7 (R37, R41, R162). -/
def cursorDown (c : Cursor) : Cursor := c - 1

/-- The counter plus one, modulo 2^w, for any COUNT_WIDTH w (R39, R211). -/
def countUp {w : Nat} (c : BitVec w) : BitVec w := c + 1

/-- The trash-bit count that an operand of R.NEW requests: `t[2:0]` for 0 to 7, none for every other integer
(R113, R151). -/
def trashCount (t : Int) : Option (BitVec 3) :=
  if 0 ≤ t ∧ t ≤ Config.trashMax then some (BitVec.ofInt 3 t) else none

/-- The bit that an operand of W.WRITE denotes: 1 when nonzero, 0 when zero (R114, R210). -/
def operandBit (v : Int) : Bool := decide (v ≠ 0)

end Sys2Proof.Machine
end

