-- ==== Sys2Proof/Machine/Flags.lean ====
section
/-!
DEFINITION. The flags of the core (R43): LAV's rule, the conditions that the commands test on the cursors, LAV
and SEALED, and the fields of the response word (R118, R119).
-/

namespace Sys2Proof.Machine

/-- The look-ahead pull's answer latched into LA and LAV: a byte sets both, any other answer clears LAV and
keeps LA (R36, R165). -/
def ReaderUnit.latch (a : PullAnswer) (r : ReaderUnit) : ReaderUnit :=
  match a with
  | .byte b => { r with la := b, lav := true }
  | .exhausted => { r with lav := false }
  | .failed _ => { r with lav := false }

/-- No bit of CUR remains to be surfaced, so R.READ loads a byte (R37, R160 step 1). -/
def ReaderUnit.needsLoad (r : ReaderUnit) : Bool := decide (r.rcur = 7#3)

/-- The end-of-usable-data condition, `LAV == 0 and RCUR < TRASH` (R161). -/
def ReaderUnit.endOfData (r : ReaderUnit) : Bool := !r.lav && decide (r.rcur < r.trash)

/-- The bit that the extraction surfaces, `CUR[RCUR]` (R162). -/
def ReaderUnit.currentBit (r : ReaderUnit) : Bool := bitAt r.cur r.rcur

/-- The next written bit completes the byte (R211). -/
def WriterUnit.lastBit (w : WriterUnit) : Bool := decide (w.wcur = 0#3)

/-- No partial byte is pending (R41, R222). -/
def WriterUnit.atBoundary (w : WriterUnit) : Bool := decide (w.wcur = 7#3)

/-- SCR once a bit has been placed at WCUR; a 0 bit writes nothing (R211, R213). -/
def WriterUnit.filled (v : Int) (w : WriterUnit) : Byte :=
  if operandBit v then setBit w.scr w.wcur else w.scr

/-- The status code (R119); code 7 is never produced. -/
def Status.code : Status → BitVec 3
  | .ok => 0
  | .exhausted => 1
  | .ioError => 2
  | .preconditionViolation => 3
  | .misuse => 4
  | .illegalCommand => 5
  | .noInstance => 6

/-- The STATUS of a response (R118, R119). -/
def Response.status : Response → Status
  | .ok _ _ => .ok
  | .exhausted => .exhausted
  | .ioError _ => .ioError
  | .preconditionViolation => .preconditionViolation
  | .misuse => .misuse
  | .illegalCommand => .illegalCommand
  | .noInstance => .noInstance

/-- The BIT field: 0 unless an R.READ ended with OK (R118, R302). -/
def Response.bitField : Response → Bool
  | .ok bit _ => bit
  | .exhausted => false
  | .ioError _ => false
  | .preconditionViolation => false
  | .misuse => false
  | .illegalCommand => false
  | .noInstance => false

/-- The COUNT field: 0 unless a W.COUNT ended with OK (R118). -/
def Response.countField : Response → Count
  | .ok _ count => count
  | .exhausted => 0
  | .ioError _ => 0
  | .preconditionViolation => 0
  | .misuse => 0
  | .illegalCommand => 0
  | .noInstance => 0

/-- The ERR field: the token when STATUS is IO_ERROR, 0 otherwise (R118). -/
def Response.errField : Response → ErrToken
  | .ok _ _ => 0
  | .exhausted => 0
  | .ioError e => e
  | .preconditionViolation => 0
  | .misuse => 0
  | .illegalCommand => 0
  | .noInstance => 0

/-- The response as a number, `STATUS ++ BIT ++ COUNT ++ ERR` with STATUS in the top bits (R118). -/
def Response.word (r : Response) : BitVec (3 + 1 + Config.countWidth + Config.errWidth) :=
  r.status.code ++ BitVec.ofBool r.bitField ++ r.countField ++ r.errField

/-- OK with every field 0: the response of a command that returns a bare status (R118, D16). -/
def Response.done : Response := .ok false 0

end Sys2Proof.Machine
end

