-- ==== Sys2Proof/Machine/Ops.lean ====
section
/-!
DEFINITION. The operations that the commands share: completing a command (R12), the lifecycle checks (R152,
R202), a pull and a push (R11, R75), what follows their answers (R160, R211, R221), power-on reset (R290,
R293) and the choice of the next input (R110, R300).

The core has no trap: the one exceptional outcome is a response with a status (R250, R258), which `complete`
delivers, and there is nothing to return from (R259).
-/

namespace Sys2Proof.Machine

/-- Goes on from a next state; a stop stays a stop. -/
def andThen (o : Host.Outcome State Fault Refusal) (k : State → Host.Outcome State Fault Refusal) :
    Host.Outcome State Fault Refusal :=
  match o with
  | .next s => k s
  | .fault f => .fault f
  | .refused r => .refused r

/-- A command is in progress on the port: it has been accepted and not answered (R300). -/
def busy (p : Port) (s : State) : Bool :=
  match p with
  | .reader => s.reader.pending.isSome
  | .writer => s.writer.pending.isSome

/-- The end of a command: its one response is delivered, and the port accepts the next word (R12, R110, R118).
Both `respond` and `raise` of the spec's pseudocode are this. -/
def complete (p : Port) (r : Response) (s : State) : State :=
  match p with
  | .reader => { s with reader := { s.reader with pending := none }, readerOut := s.readerOut ++ [r] }
  | .writer => { s with writer := { s.writer with pending := none }, writerOut := s.writerOut ++ [r] }

/-- Runs a command that a port accepts. While a command is in progress the port accepts none, and nothing
happens (R110, R300). -/
def accept (p : Port) (s : State) (run : State → State) : State :=
  if busy p s then s else run s

/-- The lifecycle check of R.READ: the response that refuses it, if there is one (R152). -/
def readerRefusal (r : ReaderUnit) : Option Response :=
  match r.rstate with
  | .unconstructed => some .noInstance
  | .faulted => some .preconditionViolation
  | .active => none

/-- The lifecycle check of W.WRITE, W.FLUSH and W.COUNT: the response that refuses them, if there is one
(R202). -/
def writerRefusal (w : WriterUnit) : Option Response :=
  match w.wstate with
  | .unconstructed => some .noInstance
  | .active => none

/-- A reader command past its lifecycle check (R152). -/
def onReader (run : State → State) (s : State) : State :=
  match readerRefusal s.reader with
  | some refusal => complete .reader refusal s
  | none => run s

/-- A writer command past its lifecycle check (R202). -/
def onWriter (run : State → State) (s : State) : State :=
  match writerRefusal s.writer with
  | some refusal => complete .writer refusal s
  | none => run s

/-- `Pull()` and what follows its answer (R11). The pull is issued once (R76); when the source holds no
answer ready, the command waits for it (R75). -/
def pull (wait : PullWait) (answered : PullAnswer → State → State) (s : State) : State :=
  match s.source.answers with
  | [] =>
    { s with
      source := { s.source with pulls := s.source.pulls + 1 }
      reader := { s.reader with pending := some wait } }
  | a :: rest => answered a { s with source := { answers := rest, pulls := s.source.pulls + 1 } }

/-- Steps 2 and 3 of R.READ: the end-of-usable-data check, then the extraction (R160, R161, R162). -/
def surface (s : State) : State :=
  if s.reader.endOfData then complete .reader .exhausted s
  else
    complete .reader (.ok s.reader.currentBit 0)
      { s with reader := { s.reader with rcur := cursorDown s.reader.rcur } }

/-- The look-ahead pull is answered: latch it and surface a bit. A failure's token is dropped (R165). -/
def lookAheadAnswered (a : PullAnswer) (s : State) : State :=
  surface { s with reader := s.reader.latch a }

/-- CUR is established: issue the look-ahead pull (R160, R165). -/
def establish (b : Byte) (s : State) : State :=
  pull .lookAhead lookAheadAnswered { s with reader := { s.reader with cur := b } }

/-- The first pull of a load is answered (R164). -/
def firstPullAnswered (a : PullAnswer) (s : State) : State :=
  match a with
  | .exhausted => complete .reader .exhausted s
  | .failed e => complete .reader (.ioError e) s
  | .byte b => establish b s

/-- R.READ past its lifecycle check: load when no bit remains, by promoting LA or by a first pull, and then
steps 2 and 3 (R160). -/
def readBit (s : State) : State :=
  if s.reader.needsLoad then
    if s.reader.lav then establish s.reader.la s else pull .firstPull firstPullAnswered s
  else surface s

/-- The sink's answer to a push ends the command: OK, or IO_ERROR with the token verbatim (R211, R221, R252). -/
def pushAnswered (a : PushAnswer) (s : State) : State :=
  match a with
  | .ok => complete .writer .done s
  | .failed e => complete .writer (.ioError e) s

/-- `Push(b)` and the end of its command (R11). The byte is handed over once (R76); when the sink holds no
answer ready, the command waits for it (R75). -/
def push (b : Byte) (s : State) : State :=
  match s.sink.answers with
  | [] =>
    { s with
      sink := { s.sink with pushed := s.sink.pushed ++ [b] }
      writer := { s.writer with pending := some b } }
  | a :: rest => pushAnswered a { s with sink := { answers := rest, pushed := s.sink.pushed ++ [b] } }

/-- The source answers. With a pull outstanding, the command in progress goes on (R75, R269); with none, the
answer is to an abandoned transaction and is ignored (R293). -/
def answerPull (a : PullAnswer) (s : State) : State :=
  match s.reader.pending with
  | none => s
  | some .firstPull => firstPullAnswered a { s with reader := { s.reader with pending := none } }
  | some .lookAhead => lookAheadAnswered a { s with reader := { s.reader with pending := none } }

/-- The sink answers. With a push outstanding, the command in progress ends (R75, R269); with none, the answer
is to an abandoned transaction and is ignored (R293). -/
def answerPush (a : PushAnswer) (s : State) : State :=
  match s.writer.pending with
  | none => s
  | some _ => pushAnswered a s

/-- Power-on reset: both units UNCONSTRUCTED, a command in progress abandoned without a response, no
transaction made (R290, R293). The registers that R290 leaves unspecified are those of `State.reset` (DESIGN
CHOICE, unsafe, log 1). The inputs stay, so a word that a busy port held off is still offered to the reset unit,
which the spec does not say (DESIGN CHOICE, safe, log 16). -/
def powerOn (s : State) : State :=
  { s with reader := ReaderUnit.reset, writer := WriterUnit.reset }

/-- An input that the core can take now: a word on a busy port is held off (R110, R300). -/
def takes (s : State) : Input → Bool
  | .command p _ => !busy p s
  | .pullAnswer _ => true
  | .pushAnswer _ => true
  | .powerOnReset => true

/-- The oldest input that the core can take, and the inputs that stay (R300, log 5). -/
def nextInput (s : State) : List Input → Option (Input × List Input)
  | [] => none
  | e :: rest =>
    if takes s e then some (e, rest) else (nextInput s rest).map fun found => (found.1, e :: found.2)

end Sys2Proof.Machine
end

