-- ==== Sys2Proof/Machine/Reader.lean ====
section
/-!
DEFINITION. The meanings of the reader unit's commands, R.NEW and R.READ (R150, 40_reader.md).
-/

namespace Sys2Proof.Machine

/-- The reader unit that a legal R.NEW leaves (R151, R292). -/
def ReaderUnit.constructed (trash : BitVec 3) : ReaderUnit :=
  { rstate := .active, trash := trash, cur := 0x00#8, la := 0x00#8, lav := false, rcur := 7#3, pending := none }

/-- R.NEW past the port's handshake: the sticky refusal of a FAULTED reader, the count check, and the
construction (R151). -/
def newReader (t : Int) (s : State) : State :=
  match s.reader.rstate with
  | .faulted => complete .reader .preconditionViolation s
  | .unconstructed | .active =>
    match trashCount t with
    | none =>
      complete .reader .preconditionViolation { s with reader := { s.reader with rstate := .faulted } }
    | some trash => complete .reader .done { s with reader := ReaderUnit.constructed trash }

/-- `R.NEW t` (R151). -/
def execRNew (t : Int) (s : State) : Host.Outcome State Fault Refusal :=
  .next (accept .reader s (newReader t))

/-- `R.READ` (R152, R160). -/
def execRRead (s : State) : Host.Outcome State Fault Refusal :=
  .next (accept .reader s (onReader readBit))

end Sys2Proof.Machine
end

