-- ==== Sys2Proof/Machine/Writer.lean ====
section
/-!
DEFINITION. The meanings of the writer unit's commands, W.NEW, W.WRITE, W.FLUSH and W.COUNT (R200,
41_writer.md).
-/

namespace Sys2Proof.Machine

/-- The writer unit that W.NEW leaves (R201, R292). -/
def WriterUnit.constructed : WriterUnit :=
  { wstate := .active, count := 0, scr := 0x00#8, wcur := 7#3, sealed := false, pending := none }

/-- W.WRITE past its lifecycle check: the seal, then the bit, then the push of a completed byte. SCR and WCUR
are reset whatever the push answers (R211, R212, R224). -/
def acceptBit (v : Int) (s : State) : State :=
  if s.writer.sealed then complete .writer .misuse s
  else if s.writer.lastBit then
    push (s.writer.filled v)
      { s with writer := { s.writer with count := countUp s.writer.count, scr := 0x00#8, wcur := 7#3 } }
  else
    complete .writer .done
      { s with
        writer :=
          { s.writer with
            count := countUp s.writer.count
            scr := s.writer.filled v
            wcur := cursorDown s.writer.wcur } }

/-- W.FLUSH past its lifecycle check: nothing at a byte boundary, otherwise the seal and the push of SCR as it
stands (R221, R222, R223). -/
def flushPartial (s : State) : State :=
  if s.writer.atBoundary then complete .writer .done s
  else push s.writer.scr { s with writer := { s.writer with sealed := true } }

/-- `W.NEW` (R201). -/
def execWNew (s : State) : Host.Outcome State Fault Refusal :=
  .next (accept .writer s fun s => complete .writer .done { s with writer := WriterUnit.constructed })

/-- `W.WRITE v` (R202, R211). -/
def execWWrite (v : Int) (s : State) : Host.Outcome State Fault Refusal :=
  .next (accept .writer s (onWriter (acceptBit v)))

/-- `W.FLUSH` (R202, R221). -/
def execWFlush (s : State) : Host.Outcome State Fault Refusal :=
  .next (accept .writer s (onWriter flushPartial))

/-- `W.COUNT` (R202, R231). -/
def execWCount (s : State) : Host.Outcome State Fault Refusal :=
  .next (accept .writer s (onWriter fun s => complete .writer (.ok false s.writer.count) s))

end Sys2Proof.Machine
end

