-- ==== Sys2Proof/Machine/Dispatch.lean ====
section
/-!
DEFINITION. The one dispatch from a command to its meaning.
-/

namespace Sys2Proof.Machine

def exec (i : Instr) (s : State) : Host.Outcome State Fault Refusal :=
  match i with
  | .rNew t => Sys2Proof.Machine.execRNew t s
  | .rRead => Sys2Proof.Machine.execRRead s
  | .wNew => Sys2Proof.Machine.execWNew s
  | .wWrite v => Sys2Proof.Machine.execWWrite v s
  | .wFlush => Sys2Proof.Machine.execWFlush s
  | .wCount => Sys2Proof.Machine.execWCount s

end Sys2Proof.Machine
end

