-- ==== Sys2Proof/Machine/Fetch.lean ====
section
/-!
DEFINITION. What the core does with one input: a command word is decoded and run or answered ILLEGAL_COMMAND
(R116, R123), an answer resumes the command in progress (R75), power-on reset resets (R290). And how a word is
placed where the next step takes it.
-/

namespace Sys2Proof.Machine

/-- A command word on a port: decode it first (R262), run it, or answer ILLEGAL_COMMAND with no other effect
(R116, R255). -/
def runWord (p : Port) (w : Word) (s : State) : Host.Outcome State Fault Refusal :=
  match decode p w with
  | .ok i => exec i s
  | .error _ => .next (accept p s (complete p .illegalCommand))

/-- The core takes one input. -/
def deliver (e : Input) (s : State) : Host.Outcome State Fault Refusal :=
  match e with
  | .command p w => runWord p w s
  | .pullAnswer a => .next (answerPull a s)
  | .pushAnswer a => .next (answerPush a s)
  | .powerOnReset => .next (powerOn s)

/-- One step: take the oldest input that can be taken. With none the core waits, and nothing happens between
commands (R292, R311). -/
def advance (s : State) : Host.Outcome State Fault Refusal :=
  match nextInput s s.inputs with
  | none => .next s
  | some (e, rest) => deliver e { s with inputs := rest }

/-- The port ready for a word: no command in progress on it. -/
def freePort (p : Port) (s : State) : State :=
  match p with
  | .reader => { s with reader := { s.reader with pending := none } }
  | .writer => { s with writer := { s.writer with pending := none } }

/-- The word offered, ahead of every other input, on the port that its OP[3] selects, with that port ready. -/
def offerWord (w : Word) (s : State) : State :=
  let free := freePort (portOf w) s
  { free with inputs := .command (portOf w) w :: free.inputs }

end Sys2Proof.Machine
end

