-- ==== Sys2Proof/Machine/Step.lean ====
section
/-!
DEFINITION. One step of the core, and a state whose next step runs a given word.
-/

namespace Sys2Proof.Machine

/-- One step of the core: it takes the oldest input that it can take (log 5). -/
def step (s : State) : Host.Outcome State Fault Refusal := advance s

/-- The state whose next step takes the word w, nbits of which are given. The core fetches nothing (R31, R84):
a caller offers a word on a port (R110), so this offers it there (log 11). -/
def State.withFetchWord (s : State) (nbits w : Nat) : State := offerWord (BitVec.ofNat 16 (w % 2 ^ nbits)) s

end Sys2Proof.Machine
end

