-- ==== Sys2Proof/Machine/Caller.lean ====
section
/-!
DEFINITION. What a caller does with the core: the pseudo-instructions W.BYTE and W.BITS (R121, R122), which are
no rows of the opcode table; offering a command and waiting for its response (R75, R110); issuing a sequence that
stops at the first response that is not OK; and the assembler's lines (R120).
-/

namespace Sys2Proof.Machine

/-- The W.WRITE of one bit in its canonical form, `W.WRITE 0` or `W.WRITE 1` (R114, R121). -/
def writeBit (b : Bool) : Instr := .wWrite (if b then 1 else 0)

/-- The bits of a byte in stream order, bit 7 first (R8, R70). -/
def bitsOf (b : Byte) : List Bool :=
  [ b.getLsbD 7, b.getLsbD 6, b.getLsbD 5, b.getLsbD 4, b.getLsbD 3, b.getLsbD 2, b.getLsbD 1, b.getLsbD 0 ]

/-- `W.BITS s` (R122). -/
def wBits (s : List Bool) : List Instr := s.map writeBit

/-- `W.BYTE b` (R121). -/
def wByte (b : Byte) : List Instr := wBits (bitsOf b)

/-- The responses delivered on a port, the first one first. -/
def responses (p : Port) (s : State) : List Response :=
  match p with
  | .reader => s.readerOut
  | .writer => s.writerOut

/-- Between two states the port delivered one response, and it was OK. -/
def answeredOk (p : Port) (before after : State) : Bool :=
  match (responses p after).drop (responses p before).length with
  | [.ok _ _] => true
  | _ => false

/-- The core runs until the port is ready, for n steps at most. -/
def awaitFor (p : Port) : Nat → State → Host.Outcome State Fault Refusal
  | 0, s => .next s
  | n + 1, s => if busy p s then andThen (step s) (awaitFor p n) else .next s

/-- A caller waits until the port has delivered the response of its command in progress, or no input is left that
could bring it: the wait for ever of R75 (R110, R300; log 17). -/
def awaitPort (p : Port) (s : State) : Host.Outcome State Fault Refusal := awaitFor p s.inputs.length s

/-- A caller offers a command to a ready port and waits for its response (R75, R110; log 17). -/
def perform (i : Instr) (s : State) : Host.Outcome State Fault Refusal := andThen (exec i s) (awaitPort i.port)

/-- A caller issues commands in order, each once its port is ready, and stops at the first response that is not
OK (R121, R122). A command that is never answered is the last one issued (R75; log 17). -/
def issue : List Instr → State → Host.Outcome State Fault Refusal
  | [], s => .next s
  | i :: rest, s =>
    andThen (awaitPort i.port s) fun ready =>
      andThen (perform i ready) fun t => if answeredOk i.port ready t then issue rest t else .next t

/-- A caller issues commands in order, each once its port is ready, whatever the responses are (R31, R301). A command
that is never answered blocks it for ever, also before commands of the other unit (R75, R305; log 17). -/
def runAll : List Instr → State → Host.Outcome State Fault Refusal
  | [], s => .next s
  | i :: rest, s =>
    andThen (awaitPort i.port s) fun ready =>
      andThen (perform i ready) fun t => if busy i.port t then .next t else runAll rest t

/-- Why the assembler refuses a line (R120). -/
inductive AsmError where
  /-- The line is none of the assembler's forms. -/
  | noSuchForm
  /-- The operand is no number, or no string over 0 and 1. -/
  | badOperand
  /-- The operand is outside 0 to 255; it is refused, not truncated. -/
  | outOfRange
  deriving DecidableEq, Repr

/-- The line without its comment, which starts at a `;` (R120), also within quotes (DESIGN CHOICE, safe, log 15). -/
def withoutComment : List Char → List Char
  | [] => []
  | c :: rest => if c = ';' then [] else c :: withoutComment rest

/-- The words of a line: `current` is the one being read. Spaces and tabs separate words, which the spec does not
say (DESIGN CHOICE, safe, log 15). -/
def wordsFrom (current : List Char) : List Char → List (List Char)
  | [] => if current.isEmpty then [] else [current]
  | c :: rest =>
    if c = ' ' ∨ c = '\t' then
      if current.isEmpty then wordsFrom [] rest else current :: wordsFrom [] rest
    else wordsFrom (current ++ [c]) rest

/-- The value of a digit, decimal or hexadecimal; a hexadecimal digit may be a small or a capital letter, which the
spec does not say (DESIGN CHOICE, safe, log 15). -/
def digitOf (c : Char) : Option Nat :=
  let n := c.toNat
  if 48 ≤ n ∧ n ≤ 57 then some (n - 48)
  else if 97 ≤ n ∧ n ≤ 102 then some (n - 87)
  else if 65 ≤ n ∧ n ≤ 70 then some (n - 55)
  else none

/-- A run of digits in a base, after the value already read. -/
def numberFrom (base acc : Nat) : List Char → Option Nat
  | [] => some acc
  | c :: rest =>
    match digitOf c with
    | some d => if d < base then numberFrom base (acc * base + d) rest else none
    | none => none

/-- An unsigned number, in decimal or after `0x` (R120). Leading zeros are accepted and `0X` is not, which the spec
does not say (DESIGN CHOICE, safe, log 15). -/
def numberOf : List Char → Option Nat
  | [] => none
  | '0' :: 'x' :: c :: rest => numberFrom 16 0 (c :: rest)
  | c :: rest => numberFrom 10 0 (c :: rest)

/-- An operand of 0 to 255 (R120). -/
def asmOperand (word : List Char) : Except AsmError Nat :=
  match numberOf word with
  | none => .error .badOperand
  | some n => if n ≤ 255 then .ok n else .error .outOfRange

/-- The characters of `W.BITS` up to the closing quote (R122); the empty string is accepted (DESIGN CHOICE, safe,
log 15). -/
def asmBits : List Char → Option (List Bool)
  | ['"'] => some []
  | '0' :: rest => (asmBits rest).map (false :: ·)
  | '1' :: rest => (asmBits rest).map (true :: ·)
  | _ => none

/-- The commands of a line (R120, R121, R122). A line without words gives no command, and a mnemonic is in capital
letters only, which the spec does not say (DESIGN CHOICE, safe, log 15). -/
def assembleWords : List (List Char) → Except AsmError (List Instr)
  | [] => .ok []
  | [['R', '.', 'R', 'E', 'A', 'D']] => .ok [.rRead]
  | [['W', '.', 'N', 'E', 'W']] => .ok [.wNew]
  | [['W', '.', 'F', 'L', 'U', 'S', 'H']] => .ok [.wFlush]
  | [['W', '.', 'C', 'O', 'U', 'N', 'T']] => .ok [.wCount]
  | [['R', '.', 'N', 'E', 'W'], x] => (asmOperand x).map fun t => [.rNew t]
  | [['W', '.', 'W', 'R', 'I', 'T', 'E'], x] => (asmOperand x).map fun v => [.wWrite v]
  | [['W', '.', 'B', 'Y', 'T', 'E'], x] => (asmOperand x).map fun b => wByte (BitVec.ofNat 8 b)
  | [['W', '.', 'B', 'I', 'T', 'S'], '"' :: s] =>
    match asmBits s with
    | some bits => .ok (wBits bits)
    | none => .error .badOperand
  | _ => .error .noSuchForm

/-- One line of assembler (R120). -/
def assembleLine (line : List Char) : Except AsmError (List Instr) :=
  assembleWords (wordsFrom [] (withoutComment line))

/-- A program: its lines in order (R120). The first line that is refused names the error (DESIGN CHOICE, safe,
log 15). -/
def assemble : List (List Char) → Except AsmError (List Instr)
  | [] => .ok []
  | line :: rest =>
    match assembleLine line, assemble rest with
    | .ok here, .ok there => .ok (here ++ there)
    | .error e, _ => .error e
    | _, .error e => .error e

end Sys2Proof.Machine
end

