-- ==== Sys2Proof/Safety.lean ====
section
/-!
DEFINITION. What counts as a good state: the invariants that the spec states of every reachable state (R46 to
R50) with those of a command in progress (R75, R300), the statuses a command may end with (R257), the
transactions it makes (R73, R168), what a step has just taken, which states no caller can tell apart (R291), and
the bit order of a stream (R8, R70).
-/

namespace Sys2Proof.Machine

/-- The reader unit's invariant. An UNCONSTRUCTED or FAULTED reader has no command in progress (R152). Of an
ACTIVE reader: a pull is outstanding only during a load, so with RCUR = 7, and a first pull only without a
look-ahead byte (R160); and the cursor of the final byte does not pass TRASH - 1 (R48). -/
def ReaderUnit.Inv (r : ReaderUnit) : Prop :=
  (r.rstate ≠ .active → r.pending = none) ∧
  (r.rstate = .active →
    (r.pending ≠ none → r.rcur = 7#3) ∧
    (r.pending = some .firstPull → r.lav = false) ∧
    (r.lav = false → 1 ≤ r.trash.toNat → r.rcur = 7#3 ∨ r.trash.toNat - 1 ≤ r.rcur.toNat))

/-- The writer unit's invariant. An UNCONSTRUCTED writer has no command in progress (R202). Of an ACTIVE
writer: the bits of SCR at WCUR and below are 0 (R49); COUNT mod 8 = 7 - WCUR (R50, COUNT_WIDTH being at least
3); a sealed writer has a partial byte (R221, R224). -/
def WriterUnit.Inv (w : WriterUnit) : Prop :=
  (w.wstate ≠ .active → w.pending = none) ∧
  (w.wstate = .active →
    (∀ i : Nat, i ≤ w.wcur.toNat → w.scr.getLsbD i = false) ∧
    w.count.toNat % 8 = 7 - w.wcur.toNat ∧
    (w.sealed = true → w.wcur ≠ 7#3))

/-- The state's invariant: that of each unit, and a transaction waits only while its agent holds no answer
ready (R75). -/
def State.Inv (s : State) : Prop :=
  s.reader.Inv ∧ s.writer.Inv ∧
  (s.reader.pending ≠ none → s.source.answers = []) ∧
  (s.writer.pending ≠ none → s.sink.answers = [])

/-- The statuses that a command may end with: the check marks of R257. -/
def statusAllowed : Instr → Status → Bool
  | .rNew _, st => st == .ok || st == .preconditionViolation
  | .rRead, st =>
    st == .ok || st == .exhausted || st == .ioError || st == .preconditionViolation || st == .noInstance
  | .wNew, st => st == .ok
  | .wWrite _, st => st == .ok || st == .ioError || st == .misuse || st == .noInstance
  | .wFlush, st => st == .ok || st == .ioError || st == .noInstance
  | .wCount, st => st == .ok || st == .noInstance

/-- How many pulls an R.READ issues that an idle reader port accepts: the table of R168. -/
def readPulls (s : State) : Nat :=
  if s.reader.rstate ≠ .active then 0
  else if s.reader.rcur ≠ 7#3 then 0
  else if s.reader.lav then 1
  else
    match s.source.answers with
    | .byte _ :: _ => 2
    | _ => 1

/-- How many bytes a command pushes that an idle port accepts: the table of R73. -/
def pushCount (i : Instr) (s : State) : Nat :=
  match i with
  | .wWrite _ =>
    if s.writer.wstate = .active ∧ s.writer.sealed = false ∧ s.writer.wcur = 0#3 then 1 else 0
  | .wFlush => if s.writer.wstate = .active ∧ s.writer.wcur ≠ 7#3 then 1 else 0
  | .rNew _ => 0
  | .rRead => 0
  | .wNew => 0
  | .wCount => 0

/-- The next step takes a power-on reset. -/
def TakesReset (s : State) : Prop := ∃ rest, nextInput s s.inputs = some (.powerOnReset, rest)

/-- The next step takes a word that decodes to the command i. -/
def TakesCommand (i : Instr) (s : State) : Prop :=
  ∃ p w rest, nextInput s s.inputs = some (.command p w, rest) ∧ decode p w = .ok i

/-- The two states agree on the reader unit and its ports. -/
def SameReaderSide (s t : State) : Prop :=
  t.reader = s.reader ∧ t.source = s.source ∧ t.readerOut = s.readerOut

/-- The two states agree on the writer unit and its ports. -/
def SameWriterSide (s t : State) : Prop :=
  t.writer = s.writer ∧ t.sink = s.sink ∧ t.writerOut = s.writerOut

/-- The two reader units are equal but for the registers that an UNCONSTRUCTED or FAULTED reader holds without ever
reading them; such a reader is idle (R152, R291). -/
def ReaderUnit.Alike (r r' : ReaderUnit) : Prop :=
  r' = r ∨ (r.rstate ≠ .active ∧ r'.rstate = r.rstate ∧ r.pending = none ∧ r'.pending = none)

/-- The two writer units are equal but for the registers that an UNCONSTRUCTED writer holds without ever reading
them; such a writer is idle (R202, R291). -/
def WriterUnit.Alike (w w' : WriterUnit) : Prop :=
  w' = w ∨ (w.wstate ≠ .active ∧ w'.wstate = w.wstate ∧ w.pending = none ∧ w'.pending = none)

/-- The two states are equal in everything that a caller, the source and the sink see, and alike in their units. -/
def State.Alike (s s' : State) : Prop :=
  s.reader.Alike s'.reader ∧ s.writer.Alike s'.writer ∧ s'.source = s.source ∧ s'.sink = s.sink ∧
  s'.readerOut = s.readerOut ∧ s'.writerOut = s.writerOut ∧ s'.inputs = s.inputs

/-- The bits of a stream of bytes without its `trash` last bits, MSB first in every byte (R8, R169). -/
def streamBits (bytes : List Byte) (trash : Nat) : List Bool :=
  (bytes.flatMap bitsOf).take (8 * bytes.length - trash)

/-- The byte with the given bits at position i and below, in order, and 0 in every other bit. -/
def placeBits : Nat → List Bool → Byte
  | _, [] => 0
  | i, b :: rest => (if b then 1#8 <<< i else 0) ||| placeBits (i - 1) rest

/-- The whole bytes of a sequence of bits, MSB first; up to 7 last bits are left over (R214). -/
def wholeBytes : List Bool → List Byte
  | b7 :: b6 :: b5 :: b4 :: b3 :: b2 :: b1 :: b0 :: rest =>
    placeBits 7 [b7, b6, b5, b4, b3, b2, b1, b0] :: wholeBytes rest
  | _ => []

/-- The bits that the W.WRITEs among some commands write, in order (R210, R214). -/
def writtenBits (commands : List Instr) : List Bool :=
  commands.filterMap fun i =>
    match i with
    | .wWrite v => some (decide (v ≠ 0))
    | .rNew _ => none
    | .rRead => none
    | .wNew => none
    | .wFlush => none
    | .wCount => none

/-- The number of zero bits that fill n bits up to whole bytes: `(8 - (n mod 8)) mod 8` (R304). -/
def paddingOf (n : Nat) : Nat := (8 - n % 8) % 8

end Sys2Proof.Machine
end

