-- ==== Sys2Proof/Certificates/Slice0/Obligations.lean ====
section
/-!
DEFINITION. The statements about the model, from the numbered rules of spec/. Titles, tiers and citations are
in OBLIGATIONS.json. Where a statement says `.ok false 0`, that is OK with every field 0 (R118).

A statement reads what a rule says of the ports through the model's own fields for them: the answers held ready,
the pulls issued and the bytes pushed (log 4), the inputs (log 5), the responses delivered (log 12). COUNT has
the 64 bits of R6's default (log 2).
-/

open Sys2Proof Sys2Proof.Machine

/-! ## Encoding -/

/-- A well-formed command decodes from its word, on its port, to itself (R112, R113, R115, R123). -/
def Obligations.DecodeOfEncodeIsIdentity : Prop :=
  ∀ i : Instr, i.wellFormed = true → decode i.port (encode i) = .ok i

/-- A port decodes only the words of its own well-formed commands, each from one word (R112, R115, R123). -/
def Obligations.DecodedWordIsTheEncoding : Prop :=
  ∀ (p : Port) (w : Word) (i : Instr), decode p w = .ok i →
    i.port = p ∧ i.wellFormed = true ∧ encode i = w

/-- A word is legal on a port exactly when a row of that port covers it, the row names the command that the
word decodes to, and no two rows cover one word (R112). -/
def Obligations.LegalWordsAreTheTableRows : Prop :=
  (∀ (p : Port) (w : Word), (∃ i, decode p w = .ok i) ↔ legalOn p w = true) ∧
  (∀ (w : Word) (r : OpcodeRow), r ∈ opcodeRows → r.covers w = true →
    ∃ i, decode r.port w = .ok i ∧ i.mnemonic = r.mnemonic) ∧
  (∀ (w : Word) (r r' : OpcodeRow), r ∈ opcodeRows → r' ∈ opcodeRows →
    r.covers w = true → r'.covers w = true → r = r')

/-- Words written out from the spec's patterns decode to the commands they stand for (R112; 95 section 2.1). -/
def Obligations.WordsFromThePatternsDecode : Prop :=
  decode .reader 0b0001000000000011#16 = .ok (.rNew 3) ∧
  decode .reader 0b0001000011111111#16 = .ok (.rNew 255) ∧
  decode .reader 0b0010000000000000#16 = .ok .rRead ∧
  decode .writer 0b1000000000000000#16 = .ok .wNew ∧
  decode .writer 0b1001000000000001#16 = .ok (.wWrite 1) ∧
  decode .writer 0b1010000000000000#16 = .ok .wFlush ∧
  decode .writer 0b1011000000000000#16 = .ok .wCount

/-- The packed response word holds STATUS, BIT, COUNT and ERR in that order from the top; BIT is 0 but for an OK of
R.READ, COUNT but for an OK of W.COUNT and ERR but for IO_ERROR, also where the answer came late; and two responses
with one word are one response (R118). -/
def Obligations.ResponseWordLayout : Prop :=
  (∀ r : Response,
    r.word.extractLsb' (Config.countWidth + Config.errWidth + 1) 3 = r.status.code ∧
    r.word.extractLsb' (Config.countWidth + Config.errWidth) 1 = BitVec.ofBool r.bitField ∧
    r.word.extractLsb' Config.errWidth Config.countWidth = r.countField ∧
    r.word.extractLsb' 0 Config.errWidth = r.errField) ∧
  (∀ r : Response, r.status ≠ .ok → r.bitField = false ∧ r.countField = 0) ∧
  (∀ r : Response, r.status ≠ .ioError → r.errField = 0) ∧
  (∀ e : ErrToken, (Response.ioError e).errField = e) ∧
  (∀ (i : Instr) (s t : State) (r : Response), exec i s = .next t →
    responses i.port t = responses i.port s ++ [r] →
    (i ≠ .rRead → r.bitField = false) ∧ (i ≠ .wCount → r.countField = 0)) ∧
  (∀ (a : PullAnswer) (s : State) (r : Response),
    (answerPull a s).readerOut = s.readerOut ++ [r] → r.countField = 0) ∧
  (∀ (a : PushAnswer) (s : State) (r : Response),
    (answerPush a s).writerOut = s.writerOut ++ [r] → r.bitField = false ∧ r.countField = 0) ∧
  (∀ r r' : Response, r.word = r'.word → r = r')

/-- MSB first, on both units: reading a stream without trash, the n-th bit surfaced is bit 7 - (n mod 8) of the
byte floor(n / 8) that the source delivered; writing, the n-th bit written is bit 7 - (n mod 8) of the byte
floor(n / 8) pushed (R8). -/
def Obligations.StreamBitsAreMsbFirst : Prop :=
  (∀ (bytes : List Byte) (n : Nat) (b : Byte) (rest : List PullAnswer) (s : State),
    bytes[n / 8]? = some b → s.reader.pending = none → s.reader.rstate ≠ .faulted →
    s.source.answers = bytes.map .byte ++ .exhausted :: rest →
    ∃ t, runAll (.rNew 0 :: List.replicate (n + 1) .rRead) s = .next t ∧
      t.readerOut[s.readerOut.length + 1 + n]? = some (.ok (b.getLsbD (7 - n % 8)) 0)) ∧
  (∀ (values : List Int) (rest : List PushAnswer) (s : State), s.writer.pending = none →
    s.sink.answers = List.replicate (values.length / 8) .ok ++ rest →
    ∃ t, runAll (.wNew :: values.map .wWrite) s = .next t ∧
      ∀ (n : Nat) (v : Int), n / 8 < values.length / 8 → values[n]? = some v →
        ∃ b, t.sink.pushed[s.sink.pushed.length + n / 8]? = some b ∧
          b.getLsbD (7 - n % 8) = decide (v ≠ 0))

/-! ## The step -/

/-- A word that decodes, offered first on a ready port, is run as its command, with that input taken and nothing
else changed around it (R110, R123; that a step takes one input is the model's choice, log 5). -/
def Obligations.StepRunsTheDecodedCommand : Prop :=
  ∀ (s : State) (p : Port) (w : Word) (i : Instr) (rest : List Input),
    s.inputs = .command p w :: rest → busy p s = false → decode p w = .ok i →
    step s = exec i { s with inputs := rest }

/-- The state that `withFetchWord` gives runs exactly that word next, on the port that OP[3] selects, with that
port ready and nothing else changed (the model's placing of a word, log 11). -/
def Obligations.FetchedWordIsRunNext : Prop :=
  ∀ (s : State) (w : Word) (i : Instr), decode (portOf w) w = .ok i →
    step (s.withFetchWord 16 w.toNat) = exec i (freePort (portOf w) s)

/-- An illegal word is answered ILLEGAL_COMMAND, code 5, and nothing else changes, whatever the unit's state
(R116, R255, R262). -/
def Obligations.IllegalWordOnlyAnswers : Prop :=
  (∀ (s : State) (p : Port) (w : Word) (rest : List Input),
    s.inputs = .command p w :: rest → busy p s = false → legalOn p w = false →
    step s = .next
      (match p with
        | .reader => { s with inputs := rest, readerOut := s.readerOut ++ [.illegalCommand] }
        | .writer => { s with inputs := rest, writerOut := s.writerOut ++ [.illegalCommand] })) ∧
  Response.illegalCommand.status.code = 5#3

/-- A word offered on a busy port is held off, and the other port goes on (R110, R300, R85; that the inputs stand
in one list, and that a step with nothing to take leaves the state, is the model's choice, log 5 and log 7). -/
def Obligations.BusyPortHoldsTheWord : Prop :=
  (∀ (s : State) (p : Port) (w : Word), s.inputs = [.command p w] → busy p s = true → step s = .next s) ∧
  (∀ (s : State) (p q : Port) (w v : Word) (i : Instr) (rest : List Input),
    s.inputs = .command p w :: .command q v :: rest → busy p s = true → busy q s = false →
    decode q v = .ok i →
    step s = exec i { s with inputs := .command p w :: rest })

/-- With no input the core waits and nothing happens (R292, R311; log 5; that such a step leaves the state and is no
fault is the model's choice, log 7). -/
def Obligations.WaitingCoreIsUnchanged : Prop :=
  ∀ s : State, s.inputs = [] → step s = .next s

/-- Every step and every command has a next state: no status stops the core, since it has no trap (R250, R258). That
a step with nothing to take (an idle core, or a hung one, R75) leaves the state and is no fault is the model's
choice (log 7), and so is that exec of a command on a busy port, which accepts none (R110), changes nothing
(log 14). -/
def Obligations.EveryStepHasANextState : Prop :=
  (∀ s : State, ∃ t, step s = .next t) ∧ (∀ (i : Instr) (s : State), ∃ t, exec i s = .next t)

/-! ## Reset -/

/-- Power-on reset makes both units UNCONSTRUCTED, and it makes no transaction and delivers no response, also
while a command is blocked (R290, R293). -/
def Obligations.PowerOnResetUnconstructs : Prop :=
  ∀ (s : State) (rest : List Input), s.inputs = .powerOnReset :: rest →
    ∃ t, step s = .next t ∧
      t.reader.rstate = .unconstructed ∧ t.writer.wstate = .unconstructed ∧
      busy .reader t = false ∧ busy .writer t = false ∧
      t.source = s.source ∧ t.sink = s.sink ∧
      t.readerOut = s.readerOut ∧ t.writerOut = s.writerOut ∧ t.inputs = rest

/-- After a power-on reset, the answer that comes next finds no transaction outstanding and is ignored (R293;
log 8). -/
def Obligations.AnswerAfterResetIsIgnored : Prop :=
  ∀ (s : State) (rest : List Input) (e : Input),
    (∃ a, e = .pullAnswer a) ∨ (∃ a, e = .pushAnswer a) →
    s.inputs = .powerOnReset :: e :: rest →
    ∃ t, step s = .next t ∧ step t = .next { t with inputs := rest }

/-- The invariant holds after power-on reset: both units are UNCONSTRUCTED and no command is in progress (R290,
R292). -/
def Obligations.InvariantAtReset : Prop := State.reset.Inv

/-! ## The reader unit -/

/-- R.NEW: its encoding, the sticky refusal when FAULTED, FAULTED by an illegal count, construction by a legal
one; no pull (R151). -/
def Obligations.RNewConstructsOrFaults : Prop :=
  (∀ arg : BitVec 8, decode .reader (0x10#8 ++ arg) = .ok (.rNew arg.toNat)) ∧
  ∀ (t : Int) (s : State), s.reader.pending = none →
    (s.reader.rstate = .faulted →
      exec (.rNew t) s = .next { s with readerOut := s.readerOut ++ [.preconditionViolation] }) ∧
    (s.reader.rstate ≠ .faulted → t < 0 ∨ 8 ≤ t →
      exec (.rNew t) s = .next
        { s with
          reader := { s.reader with rstate := .faulted }
          readerOut := s.readerOut ++ [.preconditionViolation] }) ∧
    (s.reader.rstate ≠ .faulted → 0 ≤ t → t < 8 →
      exec (.rNew t) s = .next
        { s with
          reader :=
            { rstate := .active, trash := BitVec.ofInt 3 t, cur := 0x00#8, la := 0x00#8, lav := false
              rcur := 7#3, pending := none }
          readerOut := s.readerOut ++ [.ok false 0] })

/-- R.READ to a reader that is not ACTIVE is refused, with no register written and no pull (R152). -/
def Obligations.RReadRefusedUnlessActive : Prop :=
  ∀ s : State, s.reader.pending = none →
    (s.reader.rstate = .unconstructed →
      exec .rRead s = .next { s with readerOut := s.readerOut ++ [.noInstance] }) ∧
    (s.reader.rstate = .faulted →
      exec .rRead s = .next { s with readerOut := s.readerOut ++ [.preconditionViolation] })

/-- R.READ within a byte: EXHAUSTED on padding of the final byte, else the bit at RCUR, and RCUR counts down
with wrap-around; nothing else changes (R161, R162). -/
def Obligations.RReadWithinAByte : Prop :=
  ∀ s : State, s.reader.pending = none → s.reader.rstate = .active → s.reader.rcur ≠ 7#3 →
    exec .rRead s = .next
      (if s.reader.lav = false ∧ s.reader.rcur.toNat < s.reader.trash.toNat then
        { s with readerOut := s.readerOut ++ [.exhausted] }
      else
        { s with
          reader := { s.reader with rcur := s.reader.rcur - 1 }
          readerOut := s.readerOut ++ [.ok (s.reader.cur.getLsbD s.reader.rcur.toNat) 0] })

/-- R.READ at a byte's end with a look-ahead byte: it is promoted with one pull, whose answer is the new
look-ahead; a failure's token is dropped (R160, R165). -/
def Obligations.RReadPromotesTheLookAhead : Prop :=
  ∀ (s : State) (a : PullAnswer) (rest : List PullAnswer),
    s.reader.pending = none → s.reader.rstate = .active → s.reader.rcur = 7#3 → s.reader.lav = true →
    s.source.answers = a :: rest →
    exec .rRead s = .next
      { s with
        reader :=
          { s.reader with
            cur := s.reader.la
            la := (match a with | .byte b => b | _ => s.reader.la)
            lav := (match a with | .byte _ => true | _ => false)
            rcur := 6#3 }
        source := { answers := rest, pulls := s.source.pulls + 1 }
        readerOut := s.readerOut ++ [.ok (s.reader.la.getLsbD 7) 0] }

/-- R.READ at a byte's end without a look-ahead byte, the source delivering one: it is loaded with two pulls,
the second the new look-ahead (R160, R165). -/
def Obligations.RReadLoadsThePulledByte : Prop :=
  ∀ (s : State) (b : Byte) (a : PullAnswer) (rest : List PullAnswer),
    s.reader.pending = none → s.reader.rstate = .active → s.reader.rcur = 7#3 → s.reader.lav = false →
    s.source.answers = .byte b :: a :: rest →
    exec .rRead s = .next
      { s with
        reader :=
          { s.reader with
            cur := b
            la := (match a with | .byte c => c | _ => s.reader.la)
            lav := (match a with | .byte _ => true | _ => false)
            rcur := 6#3 }
        source := { answers := rest, pulls := s.source.pulls + 2 }
        readerOut := s.readerOut ++ [.ok (b.getLsbD 7) 0] }

/-- The first pull of a load that delivers no byte: EXHAUSTED, or IO_ERROR with the token verbatim; no register
is written (R164). -/
def Obligations.RReadFirstPullOutcomes : Prop :=
  ∀ (s : State) (rest : List PullAnswer),
    s.reader.pending = none → s.reader.rstate = .active → s.reader.rcur = 7#3 → s.reader.lav = false →
    (s.source.answers = .exhausted :: rest →
      exec .rRead s = .next
        { s with
          source := { answers := rest, pulls := s.source.pulls + 1 }
          readerOut := s.readerOut ++ [.exhausted] }) ∧
    (∀ e : ErrToken, s.source.answers = .failed e :: rest →
      exec .rRead s = .next
        { s with
          source := { answers := rest, pulls := s.source.pulls + 1 }
          readerOut := s.readerOut ++ [.ioError e] })

/-- R.READ whose pull is not answered waits: the pull is issued, no response is delivered, and CUR is written
only once established (R75, R76, R13; log 7). -/
def Obligations.RReadWaitsForTheSource : Prop :=
  ∀ s : State, s.reader.pending = none → s.reader.rstate = .active → s.reader.rcur = 7#3 →
    (s.reader.lav = false → s.source.answers = [] →
      exec .rRead s = .next
        { s with
          reader := { s.reader with pending := some .firstPull }
          source := { answers := [], pulls := s.source.pulls + 1 } }) ∧
    (s.reader.lav = true → s.source.answers = [] →
      exec .rRead s = .next
        { s with
          reader := { s.reader with cur := s.reader.la, pending := some .lookAhead }
          source := { answers := [], pulls := s.source.pulls + 1 } }) ∧
    (∀ b : Byte, s.reader.lav = false → s.source.answers = [.byte b] →
      exec .rRead s = .next
        { s with
          reader := { s.reader with cur := b, pending := some .lookAhead }
          source := { answers := [], pulls := s.source.pulls + 2 } })

/-- A load always surfaces a bit: bit 7 of the byte it established, leaving RCUR = 6, whether the look-ahead
pull is answered at once or later (R163). -/
def Obligations.ALoadSurfacesBitSeven : Prop :=
  (∀ (s t : State) (r : Response),
    s.reader.pending = none → s.reader.rstate = .active → s.reader.rcur = 7#3 →
    s.reader.lav = true ∨ (∃ b rest, s.source.answers = .byte b :: rest) →
    exec .rRead s = .next t → t.readerOut = s.readerOut ++ [r] →
    r = .ok (t.reader.cur.getLsbD 7) 0 ∧ t.reader.rcur = 6#3) ∧
  (∀ (s : State) (a : PullAnswer), s.reader.pending = some .lookAhead → s.reader.rcur = 7#3 →
    (answerPull a s).readerOut = s.readerOut ++ [.ok (s.reader.cur.getLsbD 7) 0] ∧
    (answerPull a s).reader.rcur = 6#3 ∧ (answerPull a s).reader.cur = s.reader.cur)

/-- A failed look-ahead pull is silent: it has exactly the effect of an exhausted one, whatever its token, and
the load answers OK with LAV cleared (R165, R170, R309). -/
def Obligations.LookAheadFailureIsSilent : Prop :=
  ∀ (s : State) (e : ErrToken) (rest : List PullAnswer),
    s.reader.pending = none → s.reader.rstate = .active → s.reader.rcur = 7#3 →
    (s.reader.lav = true →
      ∃ t, exec .rRead { s with source := { s.source with answers := .failed e :: rest } } = .next t ∧
        exec .rRead { s with source := { s.source with answers := .exhausted :: rest } } = .next t ∧
        t.reader.lav = false ∧ t.reader.la = s.reader.la ∧
        t.readerOut = s.readerOut ++ [.ok (s.reader.la.getLsbD 7) 0]) ∧
    (s.reader.lav = false → ∀ b : Byte,
      ∃ t, exec .rRead { s with source := { s.source with answers := .byte b :: .failed e :: rest } } = .next t ∧
        exec .rRead { s with source := { s.source with answers := .byte b :: .exhausted :: rest } } = .next t ∧
        t.reader.lav = false ∧ t.reader.la = s.reader.la ∧
        t.readerOut = s.readerOut ++ [.ok (b.getLsbD 7) 0])

/-- The number of pulls one R.READ makes, row by row of R168's table; a refused word makes none. -/
def Obligations.RReadPullCount : Prop :=
  (∀ s t : State, s.reader.pending = none → exec .rRead s = .next t →
    t.source.pulls = s.source.pulls +
      (if s.reader.rstate ≠ .active then 0
       else if s.reader.rcur ≠ 7#3 then 0
       else if s.reader.lav then 1
       else match s.source.answers with
         | .byte _ :: _ => 2
         | _ => 1)) ∧
  (∀ (s t : State) (w : Word), legalOn .reader w = false → runWord .reader w s = .next t →
    t.source.pulls = s.source.pulls)

/-- A command whose answers arrive late ends exactly as with the answers ready: an R.READ that promotes, one that
pulls twice, one whose first pull fails, and a writer command that pushes (R75, R269; log 7). -/
def Obligations.LateAnswersGiveTheSameOutcome : Prop :=
  ∀ (s : State) (more : List Input),
    (∀ a : PullAnswer, s.reader.pending = none → s.reader.rstate = .active → s.reader.rcur = 7#3 →
      s.reader.lav = true → s.source.answers = [] → s.inputs = .pullAnswer a :: more →
      ∃ t, exec .rRead s = .next t ∧ t.reader.pending = some .lookAhead ∧
        step t = exec .rRead { s with source := { s.source with answers := [a] }, inputs := more }) ∧
    (∀ (b : Byte) (a : PullAnswer), s.reader.pending = none → s.reader.rstate = .active →
      s.reader.rcur = 7#3 → s.reader.lav = false → s.source.answers = [] →
      s.inputs = .pullAnswer (.byte b) :: .pullAnswer a :: more →
      ∃ t u, exec .rRead s = .next t ∧ t.reader.pending = some .firstPull ∧
        step t = .next u ∧ u.reader.pending = some .lookAhead ∧
        step u = exec .rRead { s with source := { s.source with answers := [.byte b, a] }, inputs := more }) ∧
    (∀ a : PullAnswer, (∀ b, a ≠ .byte b) → s.reader.pending = none → s.reader.rstate = .active →
      s.reader.rcur = 7#3 → s.reader.lav = false → s.source.answers = [] → s.inputs = .pullAnswer a :: more →
      ∃ t, exec .rRead s = .next t ∧ t.reader.pending = some .firstPull ∧
        step t = exec .rRead { s with source := { s.source with answers := [a] }, inputs := more }) ∧
    (∀ (i : Instr) (a : PushAnswer) (t : State), i.port = .writer → s.writer.pending = none →
      s.sink.answers = [] → s.inputs = .pushAnswer a :: more →
      exec i s = .next t → t.writer.pending ≠ none →
      step t = exec i { s with sink := { s.sink with answers := [a] }, inputs := more })

/-- The end of a stream with TRASH ≥ 1: from its cursor the final byte surfaces the bits down to TRASH, leaving
RCUR = TRASH - 1; every later R.READ reports EXHAUSTED with no pull and no register written (R166). -/
def Obligations.FinalByteThenStickyExhaustion : Prop :=
  ∀ (s : State) (n : Nat),
    s.reader.pending = none → s.reader.rstate = .active → s.reader.lav = false →
    1 ≤ s.reader.trash.toNat → s.reader.rcur ≠ 7#3 → s.reader.trash.toNat - 1 ≤ s.reader.rcur.toNat →
    ∃ t,
      runAll (List.replicate (s.reader.rcur.toNat + 1 - s.reader.trash.toNat) .rRead) s = .next t ∧
      t = { s with
            reader := { s.reader with rcur := s.reader.trash - 1 }
            readerOut := s.readerOut ++
              (List.range (s.reader.rcur.toNat + 1 - s.reader.trash.toNat)).map fun k =>
                .ok (s.reader.cur.getLsbD (s.reader.rcur.toNat - k)) 0 } ∧
      runAll (List.replicate n .rRead) t = .next
        { t with readerOut := t.readerOut ++ List.replicate n .exhausted }

/-- The end of a stream with TRASH = 0: from its cursor the final byte surfaces every bit, which leaves RCUR = 7
and LAV = 0, and every R.READ after it pulls the source again and reports what it answers; with TRASH ≥ 1 an
R.READ after the end makes no pull (R167). -/
def Obligations.WithoutTrashEveryReadPullsAgain : Prop :=
  (∀ s t : State, s.reader.pending = none → s.reader.rstate = .active → s.reader.lav = false →
    1 ≤ s.reader.trash.toNat → s.reader.rcur = s.reader.trash - 1 → exec .rRead s = .next t →
    t.source = s.source) ∧
  ∀ s : State, s.reader.pending = none → s.reader.rstate = .active → s.reader.lav = false →
    s.reader.trash = 0#3 →
    (s.reader.rcur ≠ 7#3 →
      runAll (List.replicate (s.reader.rcur.toNat + 1) .rRead) s = .next
        { s with
          reader := { s.reader with rcur := 7#3 }
          readerOut := s.readerOut ++
            (List.range (s.reader.rcur.toNat + 1)).map fun k =>
              .ok (s.reader.cur.getLsbD (s.reader.rcur.toNat - k)) 0 }) ∧
    (∀ (n : Nat) (rest : List PullAnswer), s.reader.rcur = 7#3 →
      s.source.answers = List.replicate n .exhausted ++ rest →
      runAll (List.replicate n .rRead) s = .next
        { s with
          source := { answers := rest, pulls := s.source.pulls + n }
          readerOut := s.readerOut ++ List.replicate n .exhausted }) ∧
    (∀ (e : ErrToken) (rest : List PullAnswer), s.reader.rcur = 7#3 → s.source.answers = .failed e :: rest →
      exec .rRead s = .next
        { s with
          source := { answers := rest, pulls := s.source.pulls + 1 }
          readerOut := s.readerOut ++ [.ioError e] }) ∧
    (∀ (b : Byte) (a : PullAnswer) (rest : List PullAnswer), s.reader.rcur = 7#3 →
      s.source.answers = .byte b :: a :: rest →
      ∃ t, exec .rRead s = .next t ∧ t.reader.cur = b ∧ t.reader.rcur = 6#3 ∧
        t.source = { answers := rest, pulls := s.source.pulls + 2 } ∧
        t.readerOut = s.readerOut ++ [.ok (b.getLsbD 7) 0])

/-- The bit sequence of a finite stream: after R.NEW τ over N bytes and then exhaustion, k R.READs return OK
with the first k of the 8N - τ bits, MSB first in every byte, and EXHAUSTED after them (R169). -/
def Obligations.FiniteStreamBitSequence : Prop :=
  ∀ (τ k : Nat) (bytes : List Byte) (rest : List PullAnswer) (s : State),
    τ ≤ 7 → s.reader.pending = none → s.reader.rstate ≠ .faulted →
    s.source.answers = bytes.map .byte ++ List.replicate (k + 1) .exhausted ++ rest →
    ∃ t, runAll (.rNew τ :: List.replicate k .rRead) s = .next t ∧
      t.readerOut = s.readerOut ++ [.ok false 0] ++
        ((streamBits bytes τ).take k).map (fun b => .ok b 0) ++
        List.replicate (k - (streamBits bytes τ).length) .exhausted

/-- Once the reader has loaded its j-th byte of N it has made exactly min(j + 1, N + 1) pulls (R80). -/
def Obligations.LookAheadPullCount : Prop :=
  ∀ (τ j k : Nat) (bytes : List Byte) (rest : List PullAnswer) (s : State),
    τ ≤ 7 → 1 ≤ j → j ≤ bytes.length → 8 * (j - 1) < k → k ≤ 8 * j →
    s.reader.pending = none → s.reader.rstate ≠ .faulted →
    s.source.answers = bytes.map .byte ++ .exhausted :: rest →
    ∃ t, runAll (.rNew τ :: List.replicate k .rRead) s = .next t ∧
      t.source.pulls = s.source.pulls + min (j + 1) (bytes.length + 1)

/-- A FAULTED reader answers every legal reader command with PRECONDITION_VIOLATION and nothing else (R253). -/
def Obligations.FaultedReaderRefusesAll : Prop :=
  ∀ (s : State) (i : Instr), s.reader.pending = none → s.reader.rstate = .faulted → i.port = .reader →
    exec i s = .next { s with readerOut := s.readerOut ++ [.preconditionViolation] }

/-- A FAULTED reader stays FAULTED over every step but a power-on reset (R33, R253, R290). -/
def Obligations.FaultedUntilPowerOnReset : Prop :=
  ∀ s t : State, s.reader.rstate = .faulted → step s = .next t →
    t.reader.rstate = .faulted ∨ TakesReset s

/-- TRASH changes only by an R.NEW with a legal count or by power-on reset (R34). -/
def Obligations.TrashWrittenOnlyByLegalRNew : Prop :=
  ∀ s t : State, step s = .next t → t.reader.trash ≠ s.reader.trash →
    (∃ n : Int, 0 ≤ n ∧ n ≤ 7 ∧ TakesCommand (.rNew n) s ∧ t.reader.trash = BitVec.ofInt 3 n) ∨ TakesReset s

/-- What R.READ leaves unchanged: RSTATE, TRASH, the whole writer side and the inputs; CUR changes only in a
load, and LA only by a look-ahead byte, which sets LAV (R13, R36, R162). -/
def Obligations.RReadFrame : Prop :=
  ∀ s t : State, exec .rRead s = .next t →
    t.reader.rstate = s.reader.rstate ∧ t.reader.trash = s.reader.trash ∧
    SameWriterSide s t ∧ t.inputs = s.inputs ∧
    (s.reader.rcur ≠ 7#3 → t.reader.cur = s.reader.cur ∧ t.reader.la = s.reader.la ∧
      t.reader.lav = s.reader.lav ∧ t.source = s.source) ∧
    (t.reader.la ≠ s.reader.la → t.reader.lav = true)

/-! ## The writer unit -/

/-- W.NEW: its encoding; it constructs the writer, also over an ACTIVE or sealed one, with no push (R201). -/
def Obligations.WNewConstructs : Prop :=
  decode .writer 0x8000#16 = .ok .wNew ∧
  ∀ s : State, s.writer.pending = none →
    exec .wNew s = .next
      { s with
        writer :=
          { wstate := .active, count := 0, scr := 0x00#8, wcur := 7#3, sealed := false, pending := none }
        writerOut := s.writerOut ++ [.ok false 0] }

/-- W.WRITE, W.FLUSH and W.COUNT to an UNCONSTRUCTED writer are refused, with no register written and no push
(R202). -/
def Obligations.WriterRefusedUnlessConstructed : Prop :=
  ∀ (s : State) (i : Instr), s.writer.pending = none → s.writer.wstate = .unconstructed →
    i.port = .writer → i ≠ .wNew →
    exec i s = .next { s with writerOut := s.writerOut ++ [.noInstance] }

/-- W.WRITE while SEALED is refused with MISUSE, code 4, and has no other effect (R254). -/
def Obligations.SealedWriteIsMisuse : Prop :=
  (∀ (s : State) (v : Int), s.writer.pending = none → s.writer.wstate = .active → s.writer.sealed = true →
    exec (.wWrite v) s = .next { s with writerOut := s.writerOut ++ [.misuse] }) ∧
  Response.misuse.status.code = 4#3

/-- W.WRITE within a byte: bit WCUR of SCR is set for a nonzero operand, COUNT goes up modulo 2^64, WCUR goes
down, and there is no push (R210, R211; log 2). -/
def Obligations.WWriteWithinAByte : Prop :=
  ∀ (s : State) (v : Int), s.writer.pending = none → s.writer.wstate = .active →
    s.writer.sealed = false → s.writer.wcur ≠ 0#3 →
    exec (.wWrite v) s = .next
      { s with
        writer :=
          { s.writer with
            scr := if v = 0 then s.writer.scr else s.writer.scr ||| (1#8 <<< s.writer.wcur.toNat)
            count := BitVec.ofNat 64 ((s.writer.count.toNat + 1) % 2 ^ 64)
            wcur := s.writer.wcur - 1 }
        writerOut := s.writerOut ++ [.ok false 0] }

/-- W.WRITE that completes a byte pushes it; SCR and WCUR are reset and COUNT has gone up whether the push
succeeds, fails or is not yet answered (R211, R212, R75; log 2, log 7). -/
def Obligations.WWriteCompletesAByte : Prop :=
  ∀ (s : State) (v : Int), s.writer.pending = none → s.writer.wstate = .active →
    s.writer.sealed = false → s.writer.wcur = 0#3 →
    let byte := if v = 0 then s.writer.scr else s.writer.scr ||| 1#8
    let after : WriterUnit :=
      { s.writer with
        scr := 0x00#8, wcur := 7#3, count := BitVec.ofNat 64 ((s.writer.count.toNat + 1) % 2 ^ 64) }
    (∀ rest, s.sink.answers = .ok :: rest →
      exec (.wWrite v) s = .next
        { s with
          writer := after
          sink := { answers := rest, pushed := s.sink.pushed ++ [byte] }
          writerOut := s.writerOut ++ [.ok false 0] }) ∧
    (∀ e rest, s.sink.answers = .failed e :: rest →
      exec (.wWrite v) s = .next
        { s with
          writer := after
          sink := { answers := rest, pushed := s.sink.pushed ++ [byte] }
          writerOut := s.writerOut ++ [.ioError e] }) ∧
    (s.sink.answers = [] →
      exec (.wWrite v) s = .next
        { s with
          writer := { after with pending := some byte }
          sink := { answers := [], pushed := s.sink.pushed ++ [byte] } })

/-- Writing a 0 bit changes no bit of SCR, and in a state that meets the invariant the bit at WCUR is 0
already; COUNT and WCUR move as for a 1 bit (R213). -/
def Obligations.ZeroBitWritesNothing : Prop :=
  ∀ s t u : State, s.writer.Inv → s.writer.pending = none → s.writer.wstate = .active →
    s.writer.sealed = false → s.writer.wcur ≠ 0#3 →
    exec (.wWrite 0) s = .next t → exec (.wWrite 1) s = .next u →
    t.writer.scr = s.writer.scr ∧ s.writer.scr.getLsbD s.writer.wcur.toNat = false ∧
    t.writer.count = s.writer.count + 1 ∧ t.writer.wcur = s.writer.wcur - 1 ∧
    u.writer.count = t.writer.count ∧ u.writer.wcur = t.writer.wcur

/-- COUNT wraps to 0 after its greatest value, 2^64 - 1 (R39, R310; log 2). -/
def Obligations.CountWrapsToZero : Prop :=
  ∀ (s t : State) (v : Int), s.writer.pending = none → s.writer.wstate = .active →
    s.writer.sealed = false → s.writer.count.toNat = 2 ^ 64 - 1 →
    exec (.wWrite v) s = .next t → t.writer.count = 0

/-- W.FLUSH with a partial byte pushes SCR as it stands and seals the writer whatever the sink answers; SCR,
WCUR and COUNT are unchanged; a push that is not yet answered leaves the command waiting (R221, R224, R75;
log 7). So does a W.FLUSH of a sealed writer, and SCR and WCUR stay, by the reading of R223 (log 9). -/
def Obligations.WFlushPushesThePartialByte : Prop :=
  ∀ s : State, s.writer.pending = none → s.writer.wstate = .active → s.writer.wcur ≠ 7#3 →
    (∀ rest, s.sink.answers = .ok :: rest →
      exec .wFlush s = .next
        { s with
          writer := { s.writer with sealed := true }
          sink := { answers := rest, pushed := s.sink.pushed ++ [s.writer.scr] }
          writerOut := s.writerOut ++ [.ok false 0] }) ∧
    (∀ e rest, s.sink.answers = .failed e :: rest →
      exec .wFlush s = .next
        { s with
          writer := { s.writer with sealed := true }
          sink := { answers := rest, pushed := s.sink.pushed ++ [s.writer.scr] }
          writerOut := s.writerOut ++ [.ioError e] }) ∧
    (s.sink.answers = [] →
      exec .wFlush s = .next
        { s with
          writer := { s.writer with sealed := true, pending := some s.writer.scr }
          sink := { answers := [], pushed := s.sink.pushed ++ [s.writer.scr] } })

/-- W.FLUSH at a byte boundary makes no push, writes no register and returns OK, whatever the sink would answer
(R222). -/
def Obligations.WFlushAtBoundaryDoesNothing : Prop :=
  ∀ s : State, s.writer.pending = none → s.writer.wstate = .active → s.writer.wcur = 7#3 →
    exec .wFlush s = .next { s with writerOut := s.writerOut ++ [.ok false 0] }

/-- Every further W.FLUSH with a partial byte pending pushes the same byte once more, whatever the pushes
answer: the re-push reading of R223 and decision D26, which the model takes (log 9). -/
def Obligations.RepeatedFlushPushesAgain : Prop :=
  ∀ (s : State) (now rest : List PushAnswer), s.writer.pending = none → s.writer.wstate = .active →
    s.writer.wcur ≠ 7#3 → s.writer.sealed = true → s.sink.answers = now ++ rest →
    runAll (List.replicate now.length .wFlush) s = .next
      { s with
        sink := { answers := rest, pushed := s.sink.pushed ++ List.replicate now.length s.writer.scr }
        writerOut := s.writerOut ++ now.map fun a =>
          match a with
          | .ok => .ok false 0
          | .failed e => .ioError e }

/-- The padding of a flush that pushes: WCUR + 1 = 8 - (COUNT mod 8) low-order zero bits, 1 to 7 of them
(R225; a flush of a sealed writer pushes by the reading of R223, log 9). -/
def Obligations.FlushPaddingLength : Prop :=
  ∀ s t : State, s.writer.Inv → s.writer.pending = none → s.writer.wstate = .active → s.writer.wcur ≠ 7#3 →
    exec .wFlush s = .next t →
    ∃ b, t.sink.pushed = s.sink.pushed ++ [b] ∧
      s.writer.wcur.toNat + 1 = 8 - s.writer.count.toNat % 8 ∧
      1 ≤ 8 - s.writer.count.toNat % 8 ∧ 8 - s.writer.count.toNat % 8 ≤ 7 ∧
      ∀ j, j < 8 - s.writer.count.toNat % 8 → b.getLsbD j = false

/-- W.COUNT: its encoding; NO_INSTANCE without a writer; else COUNT, also while SEALED, with nothing changed but
the response port (R231). -/
def Obligations.WCountReturnsCount : Prop :=
  decode .writer 0xB000#16 = .ok .wCount ∧
  ∀ s : State, s.writer.pending = none →
    (s.writer.wstate = .unconstructed →
      exec .wCount s = .next { s with writerOut := s.writerOut ++ [.noInstance] }) ∧
    (s.writer.wstate = .active →
      exec .wCount s = .next { s with writerOut := s.writerOut ++ [.ok false s.writer.count] })

/-- The seal is cleared only by W.NEW or power-on reset (R42, R224). -/
def Obligations.SealClearedOnlyByWNewOrReset : Prop :=
  ∀ s t : State, s.writer.sealed = true → step s = .next t →
    t.writer.sealed = true ∨ TakesCommand .wNew s ∨ TakesReset s

/-- COUNT changes only by an accepted W.WRITE, which adds 1, by W.NEW or by power-on reset (R39, R232). -/
def Obligations.CountCountsAcceptedBits : Prop :=
  ∀ s t : State, step s = .next t →
    t.writer.count = s.writer.count ∨
    ((∃ v, TakesCommand (.wWrite v) s) ∧ s.writer.wstate = .active ∧ s.writer.sealed = false ∧
      t.writer.count = s.writer.count + 1) ∨
    (TakesCommand .wNew s ∧ t.writer.count = 0) ∨ TakesReset s

/-- What the writer's commands leave unchanged: the whole reader side and the inputs; W.WRITE keeps SEALED and
WSTATE and pushes only at WCUR = 0; W.FLUSH keeps SCR, WCUR, COUNT and WSTATE (R13, R211, R221; that W.FLUSH keeps
SCR and WCUR is the reading of R223, log 9). -/
def Obligations.WriterCommandFrames : Prop :=
  (∀ (i : Instr) (s t : State), i.port = .writer → exec i s = .next t →
    SameReaderSide s t ∧ t.inputs = s.inputs) ∧
  (∀ (v : Int) (s t : State), exec (.wWrite v) s = .next t →
    t.writer.sealed = s.writer.sealed ∧ t.writer.wstate = s.writer.wstate ∧
    (s.writer.wcur ≠ 0#3 → t.sink = s.sink)) ∧
  (∀ s t : State, exec .wFlush s = .next t →
    t.writer.scr = s.writer.scr ∧ t.writer.wcur = s.writer.wcur ∧ t.writer.count = s.writer.count ∧
    t.writer.wstate = s.writer.wstate)

/-- After W.NEW, the W.WRITEs, with any W.COUNTs and byte-boundary W.FLUSHes between them, push exactly the whole
bytes of the accepted bits, MSB first, whether or not an earlier push failed, and COUNT is the number of bits
modulo 2^COUNT_WIDTH (R214, R232; COUNT_WIDTH is the default 64, log 2). -/
def Obligations.WrittenBitsArePushedAsBytes : Prop :=
  ∀ (commands : List Instr) (now rest : List PushAnswer) (s : State),
    (∀ i ∈ commands, i.port = .writer ∧ i ≠ .wNew) →
    (∀ before after, commands = before ++ .wFlush :: after → (writtenBits before).length % 8 = 0) →
    s.writer.pending = none → s.sink.answers = now ++ rest →
    now.length = (writtenBits commands).length / 8 →
    ∃ t, runAll (.wNew :: commands) s = .next t ∧
      t.sink = { answers := rest, pushed := s.sink.pushed ++ wholeBytes (writtenBits commands) } ∧
      t.writer.count.toNat = (writtenBits commands).length % 2 ^ Config.countWidth

/-- W.BYTE b is the W.WRITEs 0x9000 or 0x9001 of b's bits, bit 7 first, and W.BITS those of its string; W.BYTE b at
a byte boundary pushes b, the sink accepting at once or late. An expansion stops at the first response that is not
OK, whichever command and state gives it, and at no other: an OK goes on with the rest, also one that comes late; a
late failure stops it, and so does an answer that never comes (R121, R122, R75; the caller's wait is log 17). -/
def Obligations.WByteWritesTheByte : Prop :=
  (∀ b : Byte, (wByte b).map encode =
    [7, 6, 5, 4, 3, 2, 1, 0].map fun i => 0x9000#16 ||| (BitVec.ofBool (b.getLsbD i)).setWidth 16) ∧
  (∀ bits : List Bool, (wBits bits).map encode = bits.map fun c => if c then 0x9001#16 else 0x9000#16) ∧
  (∀ (b : Byte) (s : State) (rest : List PushAnswer), s.writer.pending = none → s.writer.wstate = .active →
    s.writer.sealed = false → s.writer.wcur = 7#3 → s.writer.scr = 0#8 → s.sink.answers = .ok :: rest →
    issue (wByte b) s = .next
      { s with
        writer := { s.writer with count := s.writer.count + 8 }
        sink := { answers := rest, pushed := s.sink.pushed ++ [b] }
        writerOut := s.writerOut ++ List.replicate 8 (.ok false 0) }) ∧
  (∀ (b : Byte) (s : State) (more : List Input), s.writer.pending = none → s.writer.wstate = .active →
    s.writer.sealed = false → s.writer.wcur = 7#3 → s.writer.scr = 0#8 → s.sink.answers = [] →
    s.inputs = .pushAnswer .ok :: more →
    issue (wByte b) s = .next
      { s with
        writer := { s.writer with count := s.writer.count + 8 }
        sink := { answers := [], pushed := s.sink.pushed ++ [b] }
        writerOut := s.writerOut ++ List.replicate 8 (.ok false 0)
        inputs := more }) ∧
  (∀ (i : Instr) (rest : List Instr) (s t : State), busy i.port s = false → exec i s = .next t →
    (∀ r, responses i.port t = responses i.port s ++ [r] → r.status ≠ .ok →
      issue (i :: rest) s = .next t) ∧
    (∀ r, responses i.port t = responses i.port s ++ [r] → r.status = .ok →
      issue (i :: rest) s = issue rest t) ∧
    (busy i.port t = true → t.inputs = [] → issue (i :: rest) s = .next t) ∧
    (∀ more, i.port = .writer → busy .writer t = true → t.inputs = .pushAnswer .ok :: more →
      issue (i :: rest) s = issue rest (answerPush .ok { t with inputs := more })) ∧
    (∀ e more, i.port = .writer → busy .writer t = true → t.inputs = .pushAnswer (.failed e) :: more →
      issue (i :: rest) s = .next (answerPush (.failed e) { t with inputs := more })))

/-! ## The whole machine -/

/-- Every step keeps the invariant: R48, R49 and R50; a sealed writer has a partial byte, WCUR other than 7, since a
flush that seals keeps WCUR and only W.NEW or reset clears the seal (R42, R221, R224, by the reading of R223, log 9);
a command in progress belongs to an ACTIVE unit, an R.READ in progress has RCUR = 7, with LAV = 0 at its first pull,
and its source or sink holds no answer ready (R75, log 7; the answers held ready are log 4). -/
def Obligations.StepKeepsTheInvariant : Prop :=
  ∀ s t : State, s.Inv → step s = .next t → t.Inv

/-- The units are independent: a command of one unit leaves the other's side unchanged, and its own outcome
does not depend on the other (R2, R85, R267). -/
def Obligations.UnitsDoNotInterfere : Prop :=
  (∀ (i : Instr) (s t : State), exec i s = .next t →
    (i.port = .reader → SameWriterSide s t) ∧ (i.port = .writer → SameReaderSide s t)) ∧
  (∀ (i : Instr) (s s' t t' : State), exec i s = .next t → exec i s' = .next t' →
    (i.port = .reader → SameReaderSide s s' → SameReaderSide t t') ∧
    (i.port = .writer → SameWriterSide s s' → SameWriterSide t t'))

/-- A command that a port accepts either delivers exactly one response or is in progress without one (R12,
R75, R118). -/
def Obligations.OneResponsePerCommand : Prop :=
  ∀ (i : Instr) (s t : State), busy i.port s = false → exec i s = .next t →
    (busy i.port t = false ∧ ∃ r, responses i.port t = responses i.port s ++ [r]) ∨
    (busy i.port t = true ∧ responses i.port t = responses i.port s)

/-- Which command can end with which status, both ways: every status it ends with, at once or after a late
answer, has a check mark, every check mark is reached, and code 7 is never produced (R257). -/
def Obligations.StatusesOfEveryCommand : Prop :=
  (∀ (i : Instr) (s t : State) (r : Response), exec i s = .next t →
    responses i.port t = responses i.port s ++ [r] → statusAllowed i r.status = true) ∧
  (∀ (a : PullAnswer) (s : State) (r : Response),
    (answerPull a s).readerOut = s.readerOut ++ [r] → statusAllowed .rRead r.status = true) ∧
  (∀ (a : PushAnswer) (s : State) (r : Response),
    (answerPush a s).writerOut = s.writerOut ++ [r] → statusAllowed .wFlush r.status = true ∧
      ∀ v, statusAllowed (.wWrite v) r.status = true) ∧
  (∀ (p : Port) (w : Word) (s t : State) (r : Response), legalOn p w = false → runWord p w s = .next t →
    responses p t = responses p s ++ [r] → r.status = .illegalCommand) ∧
  (∀ (i : Instr) (st : Status), (∀ t, i ≠ .rNew t) → statusAllowed i st = true →
    ∃ s t r, exec i s = .next t ∧ responses i.port t = responses i.port s ++ [r] ∧ r.status = st) ∧
  (∀ st : Status, statusAllowed (.rNew 0) st = true →
    ∃ n s t r, exec (.rNew n) s = .next t ∧ responses .reader t = responses .reader s ++ [r] ∧
      r.status = st) ∧
  (∀ r : Response, r.status.code ≠ 7)

/-- How many transactions each command makes: the table of R73. -/
def Obligations.TransactionsOfEveryCommand : Prop :=
  (∀ (i : Instr) (s t : State), busy i.port s = false → exec i s = .next t →
    t.source.pulls = s.source.pulls + (match i with | .rRead => readPulls s | _ => 0) ∧
    ∃ bytes, t.sink.pushed = s.sink.pushed ++ bytes ∧ bytes.length = pushCount i s) ∧
  (∀ (p : Port) (w : Word) (s t : State), legalOn p w = false → runWord p w s = .next t →
    t.source = s.source ∧ t.sink = s.sink)

/-- A unit whose transaction is never answered hangs: its registers and ports never change and it accepts no
word, over any number of steps; and a caller that waits for it goes no further, whichever unit its next commands
are for (R75, R305; log 5, log 7, log 17). -/
def Obligations.UnansweredTransactionHangsItsUnit : Prop :=
  (∀ (n : Nat) (s t : State), busy .reader s = true →
    (∀ e ∈ s.inputs, (∀ a, e ≠ .pullAnswer a) ∧ e ≠ .powerOnReset) →
    Host.Core.run Sys2Proof.core n s = .next t → SameReaderSide s t) ∧
  (∀ (n : Nat) (s t : State), busy .writer s = true →
    (∀ e ∈ s.inputs, (∀ a, e ≠ .pushAnswer a) ∧ e ≠ .powerOnReset) →
    Host.Core.run Sys2Proof.core n s = .next t → SameWriterSide s t) ∧
  (∀ (i : Instr) (rest : List Instr) (s t : State), busy i.port s = false → exec i s = .next t →
    busy i.port t = true → nextInput t t.inputs = none → runAll (i :: rest) s = .next t)

/-- The round trip: n bits written and flushed to an accepting sink, then the pushed bytes read with trash
count τ. The reader surfaces the bits followed by the padding, without the last τ of them; with τ the padding
it surfaces exactly the bits, and, for n ≥ 1, with no other count (R304). -/
def Obligations.RoundTripNeedsMatchedPadding : Prop :=
  ∀ (bits : List Bool) (s : State) (rest : List PushAnswer), s.writer.pending = none →
    s.sink.answers = List.replicate (bits.length / 8 + 1) .ok ++ rest →
    ∃ t bytes, runAll (.wNew :: wBits bits ++ [.wFlush]) s = .next t ∧
      t.sink.pushed = s.sink.pushed ++ bytes ∧
      8 * bytes.length = bits.length + paddingOf bits.length ∧
      ∀ (τ extra : Nat) (u : State), τ ≤ 7 → u.reader.pending = none → u.reader.rstate ≠ .faulted →
        u.source.answers = bytes.map .byte ++ List.replicate (8 * bytes.length + extra + 1) .exhausted →
        ∃ v surfaced,
          runAll (.rNew τ :: List.replicate (8 * bytes.length - τ + extra) .rRead) u = .next v ∧
          v.readerOut = u.readerOut ++ [.ok false 0] ++ surfaced.map (fun b => .ok b 0) ++
            List.replicate extra .exhausted ∧
          surfaced = (bits ++ List.replicate (paddingOf bits.length) false).take (8 * bytes.length - τ) ∧
          (τ = paddingOf bits.length → surfaced = bits) ∧
          (1 ≤ bits.length → surfaced = bits → τ = paddingOf bits.length)

/-! ## The assembler -/

/-- An operand of 0 to 255, in decimal or after 0x, is assembled to exactly that operand, and one above 255 is
refused, never truncated; R.READ, W.NEW, W.FLUSH, W.COUNT and W.BITS give their commands, and a comment gives none;
every command assembled has an encoding (R120, R121, R122; the lexical details that the spec leaves open are
log 15). -/
def Obligations.AssembledCommandsAreWellFormed : Prop :=
  (∀ (n : Nat) (digits : List Char), digits = Nat.toDigits 10 n ∨ digits = '0' :: 'x' :: Nat.toDigits 16 n →
    assembleLine (['R', '.', 'N', 'E', 'W', ' '] ++ digits) =
      (if n ≤ 255 then .ok [.rNew n] else .error .outOfRange) ∧
    assembleLine (['W', '.', 'W', 'R', 'I', 'T', 'E', ' '] ++ digits) =
      (if n ≤ 255 then .ok [.wWrite n] else .error .outOfRange) ∧
    assembleLine (['W', '.', 'B', 'Y', 'T', 'E', ' '] ++ digits) =
      (if n ≤ 255 then .ok (wByte (BitVec.ofNat 8 n)) else .error .outOfRange)) ∧
  (∀ (x : List Char) (n : Nat), numberOf x = some n →
    assembleWords [['R', '.', 'N', 'E', 'W'], x] =
      (if n ≤ 255 then .ok [.rNew n] else .error .outOfRange) ∧
    assembleWords [['W', '.', 'W', 'R', 'I', 'T', 'E'], x] =
      (if n ≤ 255 then .ok [.wWrite n] else .error .outOfRange) ∧
    assembleWords [['W', '.', 'B', 'Y', 'T', 'E'], x] =
      (if n ≤ 255 then .ok (wByte (BitVec.ofNat 8 n)) else .error .outOfRange)) ∧
  assembleLine ['R', '.', 'R', 'E', 'A', 'D'] = .ok [.rRead] ∧
  assembleLine ['W', '.', 'N', 'E', 'W'] = .ok [.wNew] ∧
  assembleLine ['W', '.', 'F', 'L', 'U', 'S', 'H'] = .ok [.wFlush] ∧
  assembleLine ['W', '.', 'C', 'O', 'U', 'N', 'T'] = .ok [.wCount] ∧
  (∀ bits : List Bool,
    assembleLine (['W', '.', 'B', 'I', 'T', 'S', ' ', '"'] ++ (bits.map fun c => if c then '1' else '0') ++ ['"']) =
      .ok (wBits bits)) ∧
  (∀ line comment : List Char, assembleLine (line ++ ';' :: comment) = assembleLine line) ∧
  (∀ (lines : List (List Char)) (program : List Instr), assemble lines = .ok program →
    ∀ i ∈ program, i.wellFormed = true)

/-! ## The registers without a reset value -/

/-- No unspecified reset value is ever observed: whatever the registers of two UNCONSTRUCTED units hold beside RSTATE
and WSTATE, every run gives the same responses, pulls, pushes and inputs left, and the same RSTATE and WSTATE. The
reason, at every step: two states whose units are alike stay so (R290, R291; the zeros of log 1 are such values). -/
def Obligations.UnspecifiedResetValuesAreUnobserved : Prop :=
  (∀ (s : State) (r r' : ReaderUnit) (w w' : WriterUnit) (n : Nat) (t : State),
    r.rstate = .unconstructed → r'.rstate = .unconstructed → r.pending = none → r'.pending = none →
    w.wstate = .unconstructed → w'.wstate = .unconstructed → w.pending = none → w'.pending = none →
    Host.Core.run Sys2Proof.core n { s with reader := r, writer := w } = .next t →
    ∃ t', Host.Core.run Sys2Proof.core n { s with reader := r', writer := w' } = .next t' ∧
      t'.readerOut = t.readerOut ∧ t'.writerOut = t.writerOut ∧ t'.source = t.source ∧ t'.sink = t.sink ∧
      t'.inputs = t.inputs ∧ t'.reader.rstate = t.reader.rstate ∧ t'.writer.wstate = t.writer.wstate) ∧
  (∀ s s' t : State, s.Alike s' → step s = .next t → ∃ t', step s' = .next t' ∧ t.Alike t') ∧
  (∀ (i : Instr) (s s' t : State), s.Alike s' → exec i s = .next t → ∃ t', exec i s' = .next t' ∧ t.Alike t')
end

