-- ==== Sys2Proof/Laws/State.lean ====
section
/-!
SUPPORT. What each update of the state leaves in each field, one lemma per field.
-/

namespace Sys2Proof.Machine

/-! ### complete, on the reader port -/

@[simp] theorem complete_reader_reader (r : Response) (s : State) :
    (complete .reader r s).reader = { s.reader with pending := none } := rfl

@[simp] theorem complete_reader_writer (r : Response) (s : State) :
    (complete .reader r s).writer = s.writer := rfl

@[simp] theorem complete_reader_source (r : Response) (s : State) :
    (complete .reader r s).source = s.source := rfl

@[simp] theorem complete_reader_sink (r : Response) (s : State) :
    (complete .reader r s).sink = s.sink := rfl

@[simp] theorem complete_reader_readerOut (r : Response) (s : State) :
    (complete .reader r s).readerOut = s.readerOut ++ [r] := rfl

@[simp] theorem complete_reader_writerOut (r : Response) (s : State) :
    (complete .reader r s).writerOut = s.writerOut := rfl

@[simp] theorem complete_reader_inputs (r : Response) (s : State) :
    (complete .reader r s).inputs = s.inputs := rfl

/-! ### complete, on the writer port -/

@[simp] theorem complete_writer_reader (r : Response) (s : State) :
    (complete .writer r s).reader = s.reader := rfl

@[simp] theorem complete_writer_writer (r : Response) (s : State) :
    (complete .writer r s).writer = { s.writer with pending := none } := rfl

@[simp] theorem complete_writer_source (r : Response) (s : State) :
    (complete .writer r s).source = s.source := rfl

@[simp] theorem complete_writer_sink (r : Response) (s : State) :
    (complete .writer r s).sink = s.sink := rfl

@[simp] theorem complete_writer_readerOut (r : Response) (s : State) :
    (complete .writer r s).readerOut = s.readerOut := rfl

@[simp] theorem complete_writer_writerOut (r : Response) (s : State) :
    (complete .writer r s).writerOut = s.writerOut ++ [r] := rfl

@[simp] theorem complete_writer_inputs (r : Response) (s : State) :
    (complete .writer r s).inputs = s.inputs := rfl

/-! ### power-on reset -/

@[simp] theorem powerOn_reader (s : State) : (powerOn s).reader = ReaderUnit.reset := rfl

@[simp] theorem powerOn_writer (s : State) : (powerOn s).writer = WriterUnit.reset := rfl

@[simp] theorem powerOn_source (s : State) : (powerOn s).source = s.source := rfl

@[simp] theorem powerOn_sink (s : State) : (powerOn s).sink = s.sink := rfl

@[simp] theorem powerOn_readerOut (s : State) : (powerOn s).readerOut = s.readerOut := rfl

@[simp] theorem powerOn_writerOut (s : State) : (powerOn s).writerOut = s.writerOut := rfl

@[simp] theorem powerOn_inputs (s : State) : (powerOn s).inputs = s.inputs := rfl

/-! ### freePort -/

@[simp] theorem freePort_reader_reader (s : State) :
    (freePort .reader s).reader = { s.reader with pending := none } := rfl

@[simp] theorem freePort_reader_writer (s : State) : (freePort .reader s).writer = s.writer := rfl

@[simp] theorem freePort_reader_source (s : State) : (freePort .reader s).source = s.source := rfl

@[simp] theorem freePort_reader_sink (s : State) : (freePort .reader s).sink = s.sink := rfl

@[simp] theorem freePort_reader_readerOut (s : State) :
    (freePort .reader s).readerOut = s.readerOut := rfl

@[simp] theorem freePort_reader_writerOut (s : State) :
    (freePort .reader s).writerOut = s.writerOut := rfl

@[simp] theorem freePort_reader_inputs (s : State) : (freePort .reader s).inputs = s.inputs := rfl

@[simp] theorem freePort_writer_reader (s : State) : (freePort .writer s).reader = s.reader := rfl

@[simp] theorem freePort_writer_writer (s : State) :
    (freePort .writer s).writer = { s.writer with pending := none } := rfl

@[simp] theorem freePort_writer_source (s : State) : (freePort .writer s).source = s.source := rfl

@[simp] theorem freePort_writer_sink (s : State) : (freePort .writer s).sink = s.sink := rfl

@[simp] theorem freePort_writer_readerOut (s : State) :
    (freePort .writer s).readerOut = s.readerOut := rfl

@[simp] theorem freePort_writer_writerOut (s : State) :
    (freePort .writer s).writerOut = s.writerOut := rfl

@[simp] theorem freePort_writer_inputs (s : State) : (freePort .writer s).inputs = s.inputs := rfl

end Sys2Proof.Machine
end

