-- ==== Sys2Proof/Laws/Ops.lean ====
section
/-!
SUPPORT. One lemma per shared operation that says everything it can do.
-/

namespace Sys2Proof.Machine

/-! ### The port's handshake and the lifecycle checks -/

@[simp] theorem busy_reader_eq (s : State) : busy .reader s = s.reader.pending.isSome := rfl

@[simp] theorem busy_writer_eq (s : State) : busy .writer s = s.writer.pending.isSome := rfl

theorem accept_ready {p : Port} {s : State} (run : State → State) (h : busy p s = false) :
    accept p s run = run s := by simp [accept, h]

theorem accept_busy {p : Port} {s : State} (run : State → State) (h : busy p s = true) :
    accept p s run = s := by simp [accept, h]

theorem accept_cases (p : Port) (s : State) (run : State → State) :
    (busy p s = true ∧ accept p s run = s) ∨ (busy p s = false ∧ accept p s run = run s) := by
  cases h : busy p s <;> simp [accept, h]

theorem readerRefusal_active {r : ReaderUnit} (h : r.rstate = .active) : readerRefusal r = none := by
  simp [readerRefusal, h]

theorem writerRefusal_active {w : WriterUnit} (h : w.wstate = .active) : writerRefusal w = none := by
  simp [writerRefusal, h]

/-! ### Pulls and pushes -/

theorem pull_unanswered (wait : PullWait) (k : PullAnswer → State → State) {s : State}
    (h : s.source.answers = []) :
    pull wait k s =
      { s with
        source := { s.source with pulls := s.source.pulls + 1 }
        reader := { s.reader with pending := some wait } } := by simp [pull, h]

theorem pull_answered (wait : PullWait) (k : PullAnswer → State → State) {s : State} {a : PullAnswer}
    {rest : List PullAnswer} (h : s.source.answers = a :: rest) :
    pull wait k s = k a { s with source := { answers := rest, pulls := s.source.pulls + 1 } } := by
  simp [pull, h]

theorem push_unanswered (b : Byte) {s : State} (h : s.sink.answers = []) :
    push b s =
      { s with
        sink := { s.sink with pushed := s.sink.pushed ++ [b] }
        writer := { s.writer with pending := some b } } := by simp [push, h]

theorem push_answered (b : Byte) {s : State} {a : PushAnswer} {rest : List PushAnswer}
    (h : s.sink.answers = a :: rest) :
    push b s = pushAnswered a { s with sink := { answers := rest, pushed := s.sink.pushed ++ [b] } } := by
  simp [push, h]

/-- The response that a push's answer gives. -/
theorem pushAnswered_eq (a : PushAnswer) (s : State) :
    pushAnswered a s =
      complete .writer (match a with | .ok => .done | .failed e => .ioError e) s := by
  cases a <;> rfl

/-! ### The phases of R.READ -/

theorem surface_endOfData {s : State} (h : s.reader.endOfData = true) :
    surface s = complete .reader .exhausted s := by simp [surface, h]

theorem surface_bit {s : State} (h : s.reader.endOfData = false) :
    surface s =
      complete .reader (.ok s.reader.currentBit 0)
        { s with reader := { s.reader with rcur := cursorDown s.reader.rcur } } := by simp [surface, h]

theorem surface_cases (s : State) :
    (s.reader.endOfData = true ∧ surface s = complete .reader .exhausted s) ∨
    (s.reader.endOfData = false ∧
      surface s =
        complete .reader (.ok s.reader.currentBit 0)
          { s with reader := { s.reader with rcur := cursorDown s.reader.rcur } }) := by
  cases h : s.reader.endOfData <;> simp [surface, h]

@[simp] theorem latch_rstate (a : PullAnswer) (r : ReaderUnit) : (r.latch a).rstate = r.rstate := by
  cases a <;> rfl

@[simp] theorem latch_trash (a : PullAnswer) (r : ReaderUnit) : (r.latch a).trash = r.trash := by
  cases a <;> rfl

@[simp] theorem latch_cur (a : PullAnswer) (r : ReaderUnit) : (r.latch a).cur = r.cur := by
  cases a <;> rfl

@[simp] theorem latch_rcur (a : PullAnswer) (r : ReaderUnit) : (r.latch a).rcur = r.rcur := by
  cases a <;> rfl

@[simp] theorem latch_pending (a : PullAnswer) (r : ReaderUnit) : (r.latch a).pending = r.pending := by
  cases a <;> rfl

/-- With the cursor at 7 no trash count makes the end-of-data condition hold (R163). -/
theorem not_endOfData_of_rcur_seven {r : ReaderUnit} (h : r.rcur = 7#3) : r.endOfData = false := by
  have key : ∀ t : BitVec 3, decide (7#3 < t) = false := by decide
  simp only [ReaderUnit.endOfData, h, key, Bool.and_false]

theorem readBit_within {s : State} (h : s.reader.rcur ≠ 7#3) : readBit s = surface s := by
  simp [readBit, ReaderUnit.needsLoad, h]

theorem readBit_promote {s : State} (h : s.reader.rcur = 7#3) (hl : s.reader.lav = true) :
    readBit s = establish s.reader.la s := by simp [readBit, ReaderUnit.needsLoad, h, hl]

theorem readBit_firstPull {s : State} (h : s.reader.rcur = 7#3) (hl : s.reader.lav = false) :
    readBit s = pull .firstPull firstPullAnswered s := by simp [readBit, ReaderUnit.needsLoad, h, hl]

/-! ### The choice of the next input -/

theorem nextInput_takes {s : State} {e : Input} (rest : List Input) (h : takes s e = true) :
    nextInput s (e :: rest) = some (e, rest) := by simp [nextInput, h]

theorem nextInput_skips {s : State} {e : Input} (rest : List Input) (h : takes s e = false) :
    nextInput s (e :: rest) = (nextInput s rest).map fun found => (found.1, e :: found.2) := by
  simp [nextInput, h]

/-- The input taken can be taken, stood in the list after inputs that cannot, and leaves the others in order. -/
theorem nextInput_spec {s : State} {inputs : List Input} {e : Input} {rest : List Input}
    (h : nextInput s inputs = some (e, rest)) :
    takes s e = true ∧ ∃ held later, inputs = held ++ e :: later ∧ rest = held ++ later ∧
      ∀ x ∈ held, takes s x = false := by
  induction inputs generalizing rest with
  | nil => simp [nextInput] at h
  | cons x xs ih =>
    cases hx : takes s x with
    | true =>
      simp only [nextInput, hx, if_true, Option.some.injEq, Prod.mk.injEq] at h
      obtain ⟨rfl, rfl⟩ := h
      exact ⟨hx, [], xs, rfl, rfl, by simp⟩
    | false =>
      rw [nextInput_skips _ hx, Option.map_eq_some_iff] at h
      obtain ⟨⟨e', rest'⟩, hfound, heq⟩ := h
      simp only [Prod.mk.injEq] at heq
      obtain ⟨rfl, rfl⟩ := heq
      obtain ⟨ht, held, later, rfl, rfl, hheld⟩ := ih hfound
      refine ⟨ht, x :: held, later, rfl, rfl, ?_⟩
      intro y hy
      rcases List.mem_cons.mp hy with rfl | hy
      · exact hx
      · exact hheld y hy

end Sys2Proof.Machine
end

