-- ==== Sys2Proof/Laws/Instructions.lean ====
section
/-!
SUPPORT. Each command on a ready port, and the step, by the operations they come down to.
-/

namespace Sys2Proof.Machine

theorem execRNew_ready (t : Int) {s : State} (h : s.reader.pending = none) :
    exec (.rNew t) s = .next (newReader t s) := by
  simp [exec, execRNew, accept, busy, h]

theorem execRRead_active {s : State} (h : s.reader.pending = none) (ha : s.reader.rstate = .active) :
    exec .rRead s = .next (readBit s) := by
  simp [exec, execRRead, accept, busy, h, onReader, readerRefusal, ha]

theorem execRRead_refused {s : State} {r : Response} (h : s.reader.pending = none)
    (hr : readerRefusal s.reader = some r) : exec .rRead s = .next (complete .reader r s) := by
  simp [exec, execRRead, accept, busy, h, onReader, hr]

theorem execWNew_ready {s : State} (h : s.writer.pending = none) :
    exec .wNew s = .next (complete .writer .done { s with writer := WriterUnit.constructed }) := by
  simp [exec, execWNew, accept, busy, h]

theorem execWWrite_active (v : Int) {s : State} (h : s.writer.pending = none)
    (ha : s.writer.wstate = .active) : exec (.wWrite v) s = .next (acceptBit v s) := by
  simp [exec, execWWrite, accept, busy, h, onWriter, writerRefusal, ha]

theorem execWFlush_active {s : State} (h : s.writer.pending = none) (ha : s.writer.wstate = .active) :
    exec .wFlush s = .next (flushPartial s) := by
  simp [exec, execWFlush, accept, busy, h, onWriter, writerRefusal, ha]

theorem execWCount_active {s : State} (h : s.writer.pending = none) (ha : s.writer.wstate = .active) :
    exec .wCount s = .next (complete .writer (.ok false s.writer.count) s) := by
  simp [exec, execWCount, accept, busy, h, onWriter, writerRefusal, ha]

/-- A command that its port does not accept changes nothing (R300). -/
theorem exec_busy (i : Instr) {s : State} (h : busy i.port s = true) : exec i s = .next s := by
  cases i <;> simp_all [exec, execRNew, execRRead, execWNew, execWWrite, execWFlush, execWCount, accept,
    Instr.port]

/-- A step takes nothing and changes nothing, or takes one input. -/
theorem step_cases (s : State) :
    (nextInput s s.inputs = none ∧ step s = .next s) ∨
    (∃ e rest, nextInput s s.inputs = some (e, rest) ∧ step s = deliver e { s with inputs := rest }) := by
  unfold step advance
  cases h : nextInput s s.inputs with
  | none => exact .inl ⟨rfl, rfl⟩
  | some found => exact .inr ⟨found.1, found.2, rfl, rfl⟩

/-- A step whose oldest input can be taken. -/
theorem step_of_head {s : State} {e : Input} {rest : List Input} (h : s.inputs = e :: rest)
    (ht : takes s e = true) : step s = deliver e { s with inputs := rest } := by
  simp [step, advance, h, nextInput, ht]

end Sys2Proof.Machine
end

