-- ==== Sys2Proof/Laws/Caller.lean ====
section
/-!
SUPPORT. What a caller's operations come down to: waiting, one command, a sequence; and the bits of the streams
that a sequence reads and writes.
-/

namespace Sys2Proof.Machine

/-! ### Waiting for a port -/

@[simp] theorem andThen_next (s : State) (k : State → Host.Outcome State Fault Refusal) :
    andThen (.next s) k = k s := rfl

/-- On a ready port nothing is waited for (R110). -/
theorem awaitPort_ready {p : Port} {s : State} (h : busy p s = false) : awaitPort p s = .next s := by
  unfold awaitPort
  cases s.inputs.length <;> simp [awaitFor, h]

/-- With no input that the core can take, waiting changes nothing (R75). -/
theorem awaitFor_stuck (p : Port) (n : Nat) {s : State} (h : nextInput s s.inputs = none) :
    awaitFor p n s = .next s := by
  have hs : step s = .next s := by simp [step, advance, h]
  induction n with
  | zero => rfl
  | succ n ih =>
    simp only [awaitFor, hs, andThen_next, ih]
    split <;> rfl

/-- A busy port whose answer is the oldest input. -/
theorem awaitPort_head {p : Port} {s t : State} {e : Input} {more : List Input} (hb : busy p s = true)
    (hi : s.inputs = e :: more) (hs : step s = .next t) (ht : busy p t = false) : awaitPort p s = .next t := by
  simp only [awaitPort, hi, List.length_cons, awaitFor, hb, if_true, hs, andThen_next]
  cases more.length <;> simp [awaitFor, ht]

/-! ### One command and a sequence -/

/-- A command answered at once needs no waiting (R110). -/
theorem perform_answered {i : Instr} {s t : State} (h : exec i s = .next t) (ht : busy i.port t = false) :
    perform i s = .next t := by
  simp [perform, h, awaitPort_ready ht]

theorem issue_cons {i : Instr} (rest : List Instr) {s t : State} (hs : busy i.port s = false)
    (h : perform i s = .next t) :
    issue (i :: rest) s = if answeredOk i.port s t then issue rest t else .next t := by
  simp [issue, awaitPort_ready hs, h]

theorem runAll_cons {i : Instr} (rest : List Instr) {s t : State} (hs : busy i.port s = false)
    (h : exec i s = .next t) (ht : busy i.port t = false) : runAll (i :: rest) s = runAll rest t := by
  simp only [runAll, awaitPort_ready hs, andThen_next, perform_answered h ht, ht, Bool.false_eq_true, if_false]

/-- A command that nothing can answer blocks the sequence (R75, R305). -/
theorem runAll_blocked {i : Instr} (rest : List Instr) {s t : State} (hs : busy i.port s = false)
    (h : exec i s = .next t) (ht : busy i.port t = true) (hn : nextInput t t.inputs = none) :
    runAll (i :: rest) s = .next t := by
  have hwait : awaitPort i.port t = .next t := awaitFor_stuck _ _ hn
  simp [runAll, awaitPort_ready hs, perform, h, hwait, ht]

/-- The one response between two states decides whether the sequence goes on (R121, R122). -/
theorem answeredOk_of_response {p : Port} {s t : State} {r : Response}
    (h : responses p t = responses p s ++ [r]) : answeredOk p s t = decide (r.status = .ok) := by
  simp only [answeredOk, h, List.drop_left]
  cases r <;> rfl

theorem answeredOk_of_none {p : Port} {s t : State} (h : responses p t = responses p s) :
    answeredOk p s t = false := by
  simp [answeredOk, h]

/-! ### The bits of a stream (R8) -/

/-- The n-th bit of a byte in stream order. -/
theorem bitsOf_getElem? {b : Byte} {n : Nat} (h : n < 8) : (bitsOf b)[n]? = some (b.getLsbD (7 - n)) := by
  match n, h with
  | 0, _ | 1, _ | 2, _ | 3, _ | 4, _ | 5, _ | 6, _ | 7, _ => rfl

theorem flatMap_bitsOf_getElem? (bytes : List Byte) (n : Nat) :
    (bytes.flatMap bitsOf)[n]? = (bytes[n / 8]?).map fun b => b.getLsbD (7 - n % 8) := by
  induction bytes generalizing n with
  | nil => simp
  | cons b bytes ih =>
    have hlen : (bitsOf b).length = 8 := rfl
    rw [List.flatMap_cons, List.getElem?_append, hlen]
    split
    · rename_i h
      rw [bitsOf_getElem? h, Nat.div_eq_of_lt h, Nat.mod_eq_of_lt h]
      rfl
    · obtain ⟨k, rfl⟩ : ∃ k, n = k + 8 := ⟨n - 8, by omega⟩
      rw [show k + 8 - 8 = k by omega, ih, show (k + 8) / 8 = k / 8 + 1 by omega,
        show (k + 8) % 8 = k % 8 by omega]
      rfl

/-- The n-th bit of a stream is bit 7 - (n mod 8) of byte floor(n / 8). -/
theorem streamBits_getElem? (bytes : List Byte) (n : Nat) :
    (streamBits bytes 0)[n]? = (bytes[n / 8]?).map fun b => b.getLsbD (7 - n % 8) := by
  have hlen : (bytes.flatMap bitsOf).length = 8 * bytes.length := by
    induction bytes with
    | nil => rfl
    | cons b bytes ih => rw [List.flatMap_cons, List.length_append, ih]; simp [bitsOf]; omega
  rw [streamBits, Nat.sub_zero, ← hlen, List.take_length, flatMap_bitsOf_getElem?]

/-- Bit 7 - n of the byte that eight bits fill is the n-th of them. -/
theorem placeBits_getLsbD :
    ∀ (b7 b6 b5 b4 b3 b2 b1 b0 : Bool) (n : Fin 8),
      [b7, b6, b5, b4, b3, b2, b1, b0][n.val]? =
        some ((placeBits 7 [b7, b6, b5, b4, b3, b2, b1, b0]).getLsbD (7 - n.val)) := by
  decide

/-- The n-th bit written is bit 7 - (n mod 8) of byte floor(n / 8). -/
theorem wholeBytes_getElem? (bits : List Bool) {n : Nat} (h : n / 8 < bits.length / 8) :
    ((wholeBytes bits)[n / 8]?).map (fun b => b.getLsbD (7 - n % 8)) = bits[n]? := by
  induction bits using wholeBytes.induct generalizing n with
  | case1 b7 b6 b5 b4 b3 b2 b1 b0 rest ih =>
    by_cases hn : n < 8
    · rw [Nat.div_eq_of_lt hn, Nat.mod_eq_of_lt hn]
      have key := placeBits_getLsbD b7 b6 b5 b4 b3 b2 b1 b0 ⟨n, hn⟩
      rw [show b7 :: b6 :: b5 :: b4 :: b3 :: b2 :: b1 :: b0 :: rest =
        [b7, b6, b5, b4, b3, b2, b1, b0] ++ rest from rfl, List.getElem?_append_left (by simpa using hn), key]
      rfl
    · obtain ⟨k, rfl⟩ : ∃ k, n = k + 8 := ⟨n - 8, by omega⟩
      rw [show (k + 8) / 8 = k / 8 + 1 by omega, show (k + 8) % 8 = k % 8 by omega]
      simp only [List.length_cons] at h
      exact ih (by omega)
  | case2 bits hshort =>
    exfalso
    match bits, hshort, h with
    | [], _, h | [_], _, h | [_, _], _, h | [_, _, _], _, h | [_, _, _, _], _, h | [_, _, _, _, _], _, h
    | [_, _, _, _, _, _], _, h | [_, _, _, _, _, _, _], _, h => simp at h
    | b7 :: b6 :: b5 :: b4 :: b3 :: b2 :: b1 :: b0 :: rest, hshort, _ => exact hshort _ _ _ _ _ _ _ _ _ rfl

end Sys2Proof.Machine
end

