-- ==== Sys2Proof/Laws/Decode.lean ====
section
/-!
SUPPORT. The fields of an encoded word, and the opcode map's rows.
-/

namespace Sys2Proof

/-- ARG of a word whose high byte is the pattern of a command and whose low byte is an operand (R111). -/
theorem argOf_orPattern (high : BitVec 8) (x : BitVec 8) :
    argOf ((high.setWidth 16 <<< 8) ||| x.setWidth 16) = x := by
  ext i hi
  simp only [argOf, BitVec.getElem_extractLsb', BitVec.getLsbD_or, BitVec.getLsbD_shiftLeft,
    BitVec.getLsbD_setWidth]
  have : 0 + i < 8 := by omega
  have : i < 16 := by omega
  simp [this, hi]

/-- An operand that fits ARG survives its 8-bit form (R113). -/
theorem toNat_ofInt_of_fitsArg {x : Int} (h : fitsArg x = true) : ((BitVec.ofInt 8 x).toNat : Int) = x := by
  simp only [fitsArg, decide_eq_true_eq] at h
  simp only [BitVec.toNat_ofInt]
  omega

/-- No two rows of the opcode map cover one word: two rows differ in a bit that both masks keep (R112). -/
theorem opcodeRows_disjoint :
    opcodeRows.Pairwise fun r r' => r.pattern &&& r'.mask ≠ r'.pattern &&& r.mask := by
  decide

end Sys2Proof
end

