-- ==== Sys2Proof/Laws/Reader.lean ====
section
/-!
SUPPORT. The phases of R.READ: every outcome of each, and what each leaves unchanged.
-/

namespace Sys2Proof.Machine

/-! ### Every outcome -/

/-- With the cursor at 7, steps 2 and 3 surface bit 7 (R163). -/
theorem surface_load {s : State} (h : s.reader.rcur = 7#3) :
    surface s =
      { s with
        reader := { s.reader with rcur := 6#3, pending := none }
        readerOut := s.readerOut ++ [.ok (s.reader.cur.getLsbD 7) 0] } := by
  rw [surface_bit (not_endOfData_of_rcur_seven h)]
  obtain ⟨⟨_, _, _, _, _, rcur, _⟩, _, _, _, _, _, _⟩ := s
  simp only at h
  subst h
  simp [complete, ReaderUnit.currentBit, bitAt, cursorDown]

/-- Establishing CUR ends in the surfacing of a bit, or waits for the look-ahead pull's answer. -/
theorem establish_cases (b : Byte) (s : State) :
    (∃ a rest, s.source.answers = a :: rest ∧
      establish b s =
        surface
          { s with
            reader := ReaderUnit.latch a { s.reader with cur := b }
            source := { answers := rest, pulls := s.source.pulls + 1 } }) ∨
    (s.source.answers = [] ∧
      establish b s =
        { s with
          reader := { s.reader with cur := b, pending := some .lookAhead }
          source := { answers := [], pulls := s.source.pulls + 1 } }) := by
  unfold establish pull
  cases h : s.source.answers with
  | nil => exact .inr ⟨rfl, by simp [h]⟩
  | cons a rest => exact .inl ⟨a, rest, rfl, rfl⟩

/-- R.READ past its lifecycle check: within a byte, a promotion, a first pull that waits, or a first pull that
is answered. -/
theorem readBit_cases (s : State) :
    (s.reader.rcur ≠ 7#3 ∧ readBit s = surface s) ∨
    (s.reader.rcur = 7#3 ∧ s.reader.lav = true ∧ readBit s = establish s.reader.la s) ∨
    (s.reader.rcur = 7#3 ∧ s.reader.lav = false ∧ s.source.answers = [] ∧
      readBit s =
        { s with
          reader := { s.reader with pending := some .firstPull }
          source := { answers := [], pulls := s.source.pulls + 1 } }) ∨
    (s.reader.rcur = 7#3 ∧ s.reader.lav = false ∧ ∃ a rest, s.source.answers = a :: rest ∧
      readBit s =
        firstPullAnswered a { s with source := { answers := rest, pulls := s.source.pulls + 1 } }) := by
  by_cases hc : s.reader.rcur = 7#3
  · cases hl : s.reader.lav with
    | true => exact .inr (.inl ⟨hc, rfl, readBit_promote hc hl⟩)
    | false =>
      refine .inr (.inr ?_)
      cases h : s.source.answers with
      | nil =>
        refine .inl ⟨hc, rfl, rfl, ?_⟩
        rw [readBit_firstPull hc hl, pull_unanswered _ _ h, ← h]
      | cons a rest =>
        refine .inr ⟨hc, rfl, a, rest, rfl, ?_⟩
        rw [readBit_firstPull hc hl, pull_answered _ _ h]
  · exact .inl ⟨hc, readBit_within hc⟩

/-! ### What stays -/

/-- Steps 2 and 3 write RCUR only, and end the command (R161, R162). -/
theorem surface_frame (s : State) :
    SameWriterSide s (surface s) ∧ (surface s).inputs = s.inputs ∧ (surface s).source = s.source ∧
    (surface s).reader.rstate = s.reader.rstate ∧ (surface s).reader.trash = s.reader.trash ∧
    (surface s).reader.cur = s.reader.cur ∧ (surface s).reader.la = s.reader.la ∧
    (surface s).reader.lav = s.reader.lav ∧ (surface s).reader.pending = none := by
  rcases surface_cases s with ⟨_, h⟩ | ⟨_, h⟩ <;> rw [h] <;> simp [SameWriterSide]

/-- What every phase of R.READ leaves unchanged: RSTATE, TRASH, the writer side and the inputs; LA changes only
to a look-ahead byte, with LAV set. -/
def ReadFrame (s t : State) : Prop :=
  SameWriterSide s t ∧ t.inputs = s.inputs ∧ t.reader.rstate = s.reader.rstate ∧
  t.reader.trash = s.reader.trash ∧ (t.reader.la ≠ s.reader.la → t.reader.lav = true)

theorem surface_readFrame (s : State) : ReadFrame s (surface s) := by
  obtain ⟨hw, hi, _, hr, ht, _, hla, _⟩ := surface_frame s
  exact ⟨hw, hi, hr, ht, fun h => absurd hla h⟩

theorem establish_readFrame (b : Byte) (s : State) : ReadFrame s (establish b s) := by
  rcases establish_cases b s with ⟨a, rest, _, h⟩ | ⟨_, h⟩
  · rw [h]
    obtain ⟨hw, hi, _, hr, ht, _, hla, hlav, _⟩ := surface_frame
      { s with
        reader := ReaderUnit.latch a { s.reader with cur := b }
        source := { answers := rest, pulls := s.source.pulls + 1 } }
    refine ⟨hw, hi, by simpa using hr, by simpa using ht, ?_⟩
    rw [hla, hlav]
    cases a <;> simp [ReaderUnit.latch]
  · rw [h]
    simp [ReadFrame, SameWriterSide]

theorem firstPullAnswered_readFrame (a : PullAnswer) (s : State) : ReadFrame s (firstPullAnswered a s) := by
  cases a with
  | byte b => exact establish_readFrame b s
  | exhausted => simp [firstPullAnswered, ReadFrame, SameWriterSide]
  | failed e => simp [firstPullAnswered, ReadFrame, SameWriterSide]

theorem readBit_readFrame (s : State) : ReadFrame s (readBit s) := by
  rcases readBit_cases s with ⟨_, h⟩ | ⟨_, _, h⟩ | ⟨_, _, _, h⟩ | ⟨_, _, a, rest, _, h⟩ <;> rw [h]
  · exact surface_readFrame s
  · exact establish_readFrame _ _
  · simp [ReadFrame, SameWriterSide]
  · exact firstPullAnswered_readFrame a
      { s with source := { answers := rest, pulls := s.source.pulls + 1 } }

end Sys2Proof.Machine
end

