-- ==== Sys2Proof/Laws/Invariant.lean ====
section
/-!
SUPPORT. Every shared operation keeps the invariant (R48, R49, R50, R75).
-/

namespace Sys2Proof.Machine

/-- COUNT's last three bits go up with it, since 2^COUNT_WIDTH is a multiple of 8 (R50). -/
theorem countUp_mod_eight (c : Count) : (countUp c).toNat % 8 = (c.toNat + 1) % 8 := by
  have h : (countUp c).toNat = (c.toNat + 1) % 2 ^ 64 := by simp [countUp, Config.countWidth]
  omega

theorem ReaderUnit.Inv.ended {r : ReaderUnit} (h : r.Inv) : ReaderUnit.Inv { r with pending := none } :=
  ⟨fun _ => rfl, fun ha => ⟨by simp, by simp, (h.2 ha).2.2⟩⟩

theorem WriterUnit.Inv.ended {w : WriterUnit} (h : w.Inv) : WriterUnit.Inv { w with pending := none } :=
  ⟨fun _ => rfl, fun ha => h.2 ha⟩

theorem complete_inv (p : Port) (r : Response) {s : State} (h : s.Inv) : (complete p r s).Inv := by
  obtain ⟨hr, hw, hsource, hsink⟩ := h
  cases p with
  | reader => exact ⟨hr.ended, hw, by simp, hsink⟩
  | writer => exact ⟨hr, hw.ended, hsource, by simp⟩

theorem powerOn_inv (s : State) : (powerOn s).Inv := by
  simp [State.Inv, ReaderUnit.Inv, WriterUnit.Inv, ReaderUnit.reset, WriterUnit.reset]

/-! ### The reader's operations -/

/-- The cursor of the final byte does not pass TRASH - 1 (R48). -/
theorem rcur_down_ge_trash_pred :
    ∀ rcur trash : BitVec 3, ¬ rcur < trash → 1 ≤ trash.toNat → trash.toNat - 1 ≤ (rcur - 1).toNat := by
  decide

/-- The reader's part of the invariant after an operation of R.READ. -/
def ReaderPart (s : State) : Prop :=
  s.reader.Inv ∧ (s.reader.pending ≠ none → s.source.answers = [])

/-- Steps 2 and 3 keep R48, given it of the cursor they start from. -/
theorem surface_readerPart {s : State}
    (hcur : s.reader.lav = false → 1 ≤ s.reader.trash.toNat →
      s.reader.rcur = 7#3 ∨ s.reader.trash.toNat - 1 ≤ s.reader.rcur.toNat) : ReaderPart (surface s) := by
  rcases surface_cases s with ⟨_, h⟩ | ⟨he, h⟩ <;> rw [h]
  · exact ⟨⟨fun _ => rfl, fun _ => ⟨by simp, by simp, hcur⟩⟩, by simp⟩
  · refine ⟨⟨fun _ => rfl, fun _ => ⟨by simp, by simp, fun hl ht => .inr ?_⟩⟩, by simp⟩
    have hlav : s.reader.lav = false := hl
    have hnot : ¬ s.reader.rcur < s.reader.trash := by simpa [ReaderUnit.endOfData, hlav] using he
    exact rcur_down_ge_trash_pred _ _ hnot ht

theorem establish_readerPart (b : Byte) {s : State} (ha : s.reader.rstate = .active)
    (hc : s.reader.rcur = 7#3) : ReaderPart (establish b s) := by
  rcases establish_cases b s with ⟨a, rest, _, h⟩ | ⟨_, h⟩ <;> rw [h]
  · exact surface_readerPart fun _ _ => .inl (by simp [hc])
  · simp [ReaderPart, ReaderUnit.Inv, ha, hc]

theorem firstPullAnswered_readerPart (a : PullAnswer) {s : State} (ha : s.reader.rstate = .active)
    (hc : s.reader.rcur = 7#3) : ReaderPart (firstPullAnswered a s) := by
  cases a with
  | byte b => exact establish_readerPart b ha hc
  | exhausted => simp [firstPullAnswered, ReaderPart, ReaderUnit.Inv, ha, hc]
  | failed e => simp [firstPullAnswered, ReaderPart, ReaderUnit.Inv, ha, hc]

theorem readBit_readerPart {s : State} (ha : s.reader.rstate = .active) (hi : s.reader.Inv) :
    ReaderPart (readBit s) := by
  rcases readBit_cases s with ⟨_, h⟩ | ⟨hc, _, h⟩ | ⟨hc, hl, _, h⟩ | ⟨hc, _, a, rest, _, h⟩ <;> rw [h]
  · exact surface_readerPart (hi.2 ha).2.2
  · exact establish_readerPart _ ha hc
  · simp [ReaderPart, ReaderUnit.Inv, ha, hc, hl]
  · exact firstPullAnswered_readerPart a ha hc

/-- The invariant from the reader's part, where the writer side stays. -/
theorem inv_of_readerPart {s t : State} (h : s.Inv) (hw : SameWriterSide s t) (hr : ReaderPart t) : t.Inv := by
  obtain ⟨hwriter, hsink, _⟩ := hw
  exact ⟨hr.1, hwriter ▸ h.2.1, hr.2, by rw [hwriter, hsink]; exact h.2.2.2⟩

/-! ### The writer's operations -/

theorem pushAnswered_inv (a : PushAnswer) {s : State} (h : s.Inv) : (pushAnswered a s).Inv := by
  cases a <;> exact complete_inv _ _ h

theorem push_inv (b : Byte) {s : State} (h : s.Inv) (ha : s.writer.wstate = .active) : (push b s).Inv := by
  obtain ⟨hr, hw, hsource, _⟩ := h
  cases hs : s.sink.answers with
  | nil =>
    rw [push_unanswered b hs]
    exact ⟨hr, ⟨by simp [ha], hw.2⟩, hsource, fun _ => hs⟩
  | cons a rest =>
    rw [push_answered b hs, pushAnswered_eq]
    exact ⟨hr, hw.ended, hsource, by simp⟩

/-- Placing a bit keeps the bits of SCR below the cursor 0 (R49). -/
theorem filled_getLsbD (v : Int) {w : WriterUnit} {j : Nat} (h : w.scr.getLsbD j = false)
    (hj : j ≠ w.wcur.toNat) : (w.filled v).getLsbD j = false := by
  simp only [WriterUnit.filled, setBit]
  split
  · simp [h]
    omega
  · exact h

end Sys2Proof.Machine
end

