-- ==== Sys2Proof/Laws/PerInstr.lean ====
section
/-!
SUPPORT. Statements about every command as syntax, one lemma per constructor.
-/

namespace Sys2Proof.Laws

/-- In the word of any command OP[3] selects the command's unit and RSV is 0000 (R111, R115). -/
def WordSelectsUnit.Statement (i : Instr) : Prop :=
  portOf (encode i) = i.port ∧ rsvOf (encode i) = 0#4

/-- OP[3] and RSV of a word that ors an operand into a pattern. -/
theorem portOf_rsvOf_or (x : BitVec 8) :
    (portOf (0x1000#16 ||| x.setWidth 16) = .reader ∧ rsvOf (0x1000#16 ||| x.setWidth 16) = 0#4) ∧
    (portOf (0x9000#16 ||| x.setWidth 16) = .writer ∧ rsvOf (0x9000#16 ||| x.setWidth 16) = 0#4) := by
  revert x
  decide

theorem WordSelectsUnit.rNew (t : Int) : WordSelectsUnit.Statement (.rNew t) := (portOf_rsvOf_or _).1

theorem WordSelectsUnit.rRead : WordSelectsUnit.Statement .rRead := by
  unfold WordSelectsUnit.Statement
  decide

theorem WordSelectsUnit.wNew : WordSelectsUnit.Statement .wNew := by
  unfold WordSelectsUnit.Statement
  decide

theorem WordSelectsUnit.wWrite (v : Int) : WordSelectsUnit.Statement (.wWrite v) := (portOf_rsvOf_or _).2

theorem WordSelectsUnit.wFlush : WordSelectsUnit.Statement .wFlush := by
  unfold WordSelectsUnit.Statement
  decide

theorem WordSelectsUnit.wCount : WordSelectsUnit.Statement .wCount := by
  unfold WordSelectsUnit.Statement
  decide

end Sys2Proof.Laws
end

