-- ==== Sys2Proof/Tests/Slice0.lean ====
section
/-!
SUPPORT. The model's own tests: the well-formedness checks, words written out from the spec's encodings, one step
per command with the results of 95_test_vectors.md, and for every obligation with hypotheses a state that
meets them (witness_…).
-/

namespace Sys2Proof.Tests

open Sys2Proof.Machine

/-! ### Small states -/

/-- The next state of an outcome. -/
def stateOf : Host.Outcome State Fault Refusal → Option State
  | .next s => some s
  | .fault _ => none
  | .refused _ => none

/-- An idle ACTIVE reader. -/
def reader (trash : BitVec 3) (cur la : Byte) (lav : Bool) (rcur : Cursor) : ReaderUnit :=
  { rstate := .active, trash := trash, cur := cur, la := la, lav := lav, rcur := rcur, pending := none }

/-- An idle ACTIVE writer. -/
def writer (count : Count) (scr : Byte) (wcur : Cursor) (isSealed : Bool) : WriterUnit :=
  { wstate := .active, count := count, scr := scr, wcur := wcur, sealed := isSealed, pending := none }

/-- Power-on reset, but for the reader unit and the source's answers. -/
def withReader (r : ReaderUnit) (answers : List PullAnswer) : State :=
  { State.reset with reader := r, source := { answers := answers, pulls := 0 } }

/-- Power-on reset, but for the writer unit and the sink's answers. -/
def withWriter (w : WriterUnit) (answers : List PushAnswer) : State :=
  { State.reset with writer := w, sink := { answers := answers, pushed := [] } }

/-- The reader after a failed construction (R151). -/
def faultedReader : ReaderUnit := { ReaderUnit.reset with rstate := .faulted }

/-- What a reader test looks at: the responses, RCUR, LAV, and the pulls. -/
def readerView (o : Host.Outcome State Fault Refusal) : Option (List Response × Cursor × Bool × Nat) :=
  (stateOf o).map fun s => (s.readerOut, s.reader.rcur, s.reader.lav, s.source.pulls)

/-- What a writer test looks at: the responses, the writer unit, and the pushed bytes. -/
def writerView (o : Host.Outcome State Fault Refusal) : Option (List Response × WriterUnit × List Byte) :=
  (stateOf o).map fun s => (s.writerOut, s.writer, s.sink.pushed)

/-! ### Well-formedness refuses what has no encoding (R120) -/

theorem test_illFormed_negative_count : (Instr.rNew (-1)).wellFormed = false := by decide
theorem test_illFormed_wide_count : (Instr.rNew 256).wellFormed = false := by decide
theorem test_illFormed_negative_bit : (Instr.wWrite (-1)).wellFormed = false := by decide
theorem test_illFormed_wide_bit : (Instr.wWrite 256).wellFormed = false := by decide

/-! ### Words written out from R112, bit by bit, and the vectors of 95 section 2.1 -/

theorem test_decode_rNew : decode .reader 0b0001000000000011#16 = .ok (.rNew 3) := by decide
theorem test_decode_rNew_255 : decode .reader 0b0001000011111111#16 = .ok (.rNew 255) := by decide
theorem test_decode_rRead : decode .reader 0b0010000000000000#16 = .ok .rRead := by decide
theorem test_decode_wNew : decode .writer 0b1000000000000000#16 = .ok .wNew := by decide
theorem test_decode_wWrite_80 : decode .writer 0b1001000010000000#16 = .ok (.wWrite 0x80) := by decide
theorem test_decode_wFlush : decode .writer 0b1010000000000000#16 = .ok .wFlush := by decide
theorem test_decode_wCount : decode .writer 0b1011000000000000#16 = .ok .wCount := by decide
theorem test_decode_reserved_bits : decode .reader 0x1103#16 = .error .reservedBits := by decide
theorem test_decode_operand_not_zero : decode .reader 0x2001#16 = .error .operandNotZero := by decide
theorem test_decode_reserved_op : decode .writer 0xC000#16 = .error .reservedOp := by decide
theorem test_decode_wrong_port : decode .reader 0x9001#16 = .error .wrongPort := by decide
theorem test_decode_reader_op_on_writer : decode .writer 0x1003#16 = .error .wrongPort := by decide
theorem test_encode_rNew : encode (.rNew 3) = 0x1003#16 := by decide
theorem test_encode_wWrite : encode (.wWrite 255) = 0x90FF#16 := by decide
theorem test_decodeTableWord : decodeTableWord 16 0x10FF = some (.rNew 255) := by decide

/-! ### The status codes of R119 -/

theorem test_status_codes :
    [Status.ok, .exhausted, .ioError, .preconditionViolation, .misuse, .illegalCommand, .noInstance].map
      Status.code = [0, 1, 2, 3, 4, 5, 6] := by decide

/-! ### R.NEW: vectors N2 and N6 of 95 section 2.2; N7 at the abstract interface -/

theorem test_rNew_seven :
    (stateOf (exec (.rNew 7) State.reset)).map State.reader = some (reader 7 0 0 false 7) := by decide

theorem test_rNew_reconstructs :
    (stateOf (exec (.rNew 2) (withReader (reader 1 0x12 0x55 true 3) []))).map State.reader =
      some (reader 2 0 0 false 7) := by decide

theorem test_rNew_negative :
    (stateOf (exec (.rNew (-1)) State.reset)).map (fun s => (s.reader.rstate, s.readerOut)) =
      some (.faulted, [.preconditionViolation]) := by decide

/-! ### R.READ: row 9 of L1-2, and R4's second read, of 95_test_vectors.md -/

theorem test_rRead_promotes :
    readerView (exec .rRead (withReader (reader 3 0x2C 0xA8 true 7) [.exhausted])) =
      some ([.ok true 0], 6, false, 1) := by decide

theorem test_rRead_end_of_data :
    readerView (exec .rRead (withReader (reader 7 0x80 0 false 6) [])) =
      some ([.exhausted], 6, false, 0) := by decide

/-- R3 of 95 section 2.3, the first read: the token comes out verbatim. -/
theorem test_rRead_io_error (e : ErrToken) :
    readerView (exec .rRead (withReader (reader 0 0 0 false 7) [.failed e])) =
      some ([.ioError e], 7, false, 1) := by
  simp [readerView, stateOf, withReader, reader, exec, execRRead, accept, busy, onReader, readerRefusal,
    readBit, ReaderUnit.needsLoad, pull, firstPullAnswered, complete, State.reset]

/-- R7 of 95 section 2.3, the first read: the look-ahead's token is dropped. -/
theorem test_rRead_look_ahead_failure (e : ErrToken) :
    readerView (exec .rRead (withReader (reader 0 0 0 false 7) [.byte 0xC3, .failed e])) =
      some ([.ok true 0], 6, false, 2) := by
  simp [readerView, stateOf, withReader, reader, exec, execRRead, accept, busy, onReader, readerRefusal,
    readBit, ReaderUnit.needsLoad, pull, firstPullAnswered, establish, lookAheadAnswered, ReaderUnit.latch,
    surface, ReaderUnit.endOfData, ReaderUnit.currentBit, bitAt, cursorDown, complete, State.reset]

/-! ### W.NEW: vector W12; W.WRITE: W3 and the eighth write of W5; W.FLUSH: W7; W.COUNT: P2 (95 section 2.4, 3) -/

theorem test_wNew_drops_bits :
    writerView (exec .wNew (withWriter (writer 3 0xE0 4 false) [])) =
      some ([.ok false 0], writer 0 0x00 7 false, []) := by decide

theorem test_wWrite_nonzero_is_one :
    writerView (exec (.wWrite 0xFF) (withWriter (writer 0 0x00 7 false) [])) =
      some ([.ok false 0], writer 1 0x80 6 false, []) := by decide

theorem test_wWrite_completes :
    writerView (exec (.wWrite 0) (withWriter (writer 7 0x5A 0 false) [.ok])) =
      some ([.ok false 0], writer 8 0x00 7 false, [0x5A]) := by decide

/-- W6 of 95 section 2.4: COUNT, SCR and WCUR move although the push failed. -/
theorem test_wWrite_failed_push (e : ErrToken) :
    writerView (exec (.wWrite 0) (withWriter (writer 7 0x5A 0 false) [.failed e])) =
      some ([.ioError e], writer 8 0x00 7 false, [0x5A]) := rfl

theorem test_wFlush_again :
    writerView (exec .wFlush (withWriter (writer 3 0xA0 4 true) [.ok])) =
      some ([.ok false 0], writer 3 0xA0 4 true, [0xA0]) := by decide

theorem test_wFlush_boundary (e : ErrToken) :
    writerView (exec .wFlush (withWriter (writer 8 0x00 7 false) [.failed e])) =
      some ([.ok false 0], writer 8 0x00 7 false, []) := rfl

theorem test_wCount_sealed :
    writerView (exec .wCount (withWriter (writer 4 0xE0 3 true) [])) =
      some ([.ok false 4], writer 4 0xE0 3 true, []) := by decide

/-- W11 of 95 section 2.4: at COUNT_WIDTH = 3 the eighth write wraps the counter. -/
theorem test_countUp_width_three : countUp 7#3 = 0#3 := by decide

/-! ### The step: status priority (95 section 2.5), a blocked command, power-on reset -/

theorem test_illegal_before_faulted :
    (stateOf (step { withReader faultedReader [] with inputs := [.command .reader 0x2001] })).map
      State.readerOut = some [.illegalCommand] := by decide

theorem test_late_answers_complete_the_read :
    readerView (Sys2Proof.core.run 3
      { withReader (reader 0 0 0 false 7) [] with
        inputs := [.command .reader 0x2000, .pullAnswer (.byte 0xA0), .pullAnswer .exhausted] }) =
      some ([.ok true 0], 6, false, 2) := rfl

theorem test_fetch_word_from_reset :
    (stateOf (step (State.reset.withFetchWord 16 0x8000))).map State.writer = some (writer 0 0 7 false) := by
  decide

/-! ### Streams, packing and the assembler (R8, R120 to R122, R169; 95 L1-2, L1-4) -/

theorem test_streamBits :
    streamBits [0x2C, 0xA8] 3 =
      [false, false, true, false, true, true, false, false, true, false, true, false, true] := by decide

theorem test_placeBits : placeBits 7 [true, true, true, false] = 0xE0#8 := by decide

theorem test_assemble_comment :
    assembleLine ['R', '.', 'N', 'E', 'W', ' ', '0', 'x', '0', '3', ' ', ';', 'x'] = .ok [.rNew 3] := by decide

theorem test_assemble_refuses_256 :
    assembleLine ['W', '.', 'W', 'R', 'I', 'T', 'E', ' ', '2', '5', '6'] = .error .outOfRange := by decide

theorem test_assemble_capital_hex :
    assembleLine ['W', '.', 'W', 'R', 'I', 'T', 'E', '\t', '0', 'x', 'F', 'f'] = .ok [.wWrite 255] := by decide

/-! ### A caller's sequence: R121's stop, and R75's wait -/

/-- W.BYTE 0x5A whose push is answered late: the expansion goes on to its end. -/
theorem test_issue_late_ok :
    writerView (issue (wByte 0x5A ++ [.wWrite 1])
      { withWriter (writer 0 0 7 false) [] with inputs := [.pushAnswer .ok] }) =
      some (List.replicate 9 (.ok false 0), writer 9 0x80 6 false, [0x5A]) := by decide

/-- The push of the eighth W.WRITE fails, at once or late, with a ninth to come: the expansion stops (R121). -/
theorem test_issue_stops_at_failed_push (e : ErrToken) :
    writerView (issue [.wWrite 0, .wWrite 1] (withWriter (writer 7 0x5A 0 false) [.failed e])) =
      some ([.ioError e], writer 8 0 7 false, [0x5A]) ∧
    writerView (issue [.wWrite 0, .wWrite 1]
      { withWriter (writer 7 0x5A 0 false) [] with inputs := [.pushAnswer (.failed e)] }) =
      some ([.ioError e], writer 8 0 7 false, [0x5A]) := ⟨rfl, rfl⟩

/-- W.BITS to an UNCONSTRUCTED writer: one NO_INSTANCE (R202, R122). -/
theorem test_issue_stops_at_no_instance :
    writerView (issue (wBits [true, false]) State.reset) = some ([.noInstance], WriterUnit.reset, []) := by
  decide

/-- R305: one sequence for both units blocks in the look-ahead pull before its W.WRITE. -/
theorem test_runAll_blocks_in_look_ahead :
    (stateOf (runAll [.rRead, .wWrite 1] { withReader (reader 0 0x12 0x80 true 7) [] with
      writer := writer 0 0 7 false })).map (fun s => (s.reader.pending, s.writer.count, s.writerOut)) =
      some (some .lookAhead, 0, []) := by decide

/-- A word held off by a busy port is still offered after a power-on reset (log 16). -/
theorem test_held_word_after_reset :
    readerView (Sys2Proof.core.run 2
      { withReader { reader 0 0 0 false 7 with pending := some .firstPull } [] with
        inputs := [.command .reader 0x2000, .powerOnReset] }) = some ([.noInstance], 0, false, 0) := by decide

theorem test_assemble_bits :
    assembleLine ['W', '.', 'B', 'I', 'T', 'S', ' ', '"', '1', '0', '"'] = .ok [.wWrite 1, .wWrite 0] := by
  decide

/-! ### Witnesses: a state and operands that meet each obligation's hypotheses -/

theorem witness_DecodeOfEncodeIsIdentity :
    (Instr.rNew 255).wellFormed = true ∧ (Instr.wWrite 0).wellFormed = true := by decide

theorem witness_DecodedWordIsTheEncoding : decode .writer 0x90FF#16 = .ok (.wWrite 255) := by decide

theorem witness_LegalWordsAreTheTableRows :
    ∃ r ∈ opcodeRows, r.covers 0x10FF#16 = true ∧ r.mnemonic = "R.NEW" := by decide

/-- StreamBitsAreMsbFirst, at the last bit of the second of two bytes on both units. -/
theorem witness_StreamBitsAreMsbFirst :
    ∃ s u : State, ([0x2C, 0xA8] : List Byte)[15 / 8]? = some 0xA8 ∧ s.reader.pending = none ∧
      s.reader.rstate ≠ .faulted ∧ s.source.answers = [0x2C, 0xA8].map .byte ++ .exhausted :: [] ∧
      u.writer.pending = none ∧ (List.replicate 17 (1 : Int)).length = 17 ∧
      u.sink.answers = List.replicate (17 / 8) .ok ++ [] ∧ 15 / 8 < 17 / 8 ∧
      (List.replicate 17 (1 : Int))[15]? = some 1 :=
  ⟨withReader ReaderUnit.reset ([0x2C, 0xA8].map .byte ++ .exhausted :: []),
    withWriter WriterUnit.reset (List.replicate (17 / 8) .ok ++ []), by decide⟩

/-- StepRunsTheDecodedCommand. -/
theorem witness_StepRunsTheDecodedCommand :
    ∃ s : State, s.inputs = .command .writer 0xB000 :: [] ∧ busy .writer s = false ∧
      decode .writer 0xB000#16 = .ok .wCount :=
  ⟨{ State.reset with inputs := [.command .writer 0xB000] }, by decide⟩

theorem witness_FetchedWordIsRunNext : decode (portOf 0x9000#16) 0x9000#16 = .ok (.wWrite 0) := by decide

theorem witness_IllegalWordOnlyAnswers :
    ∃ s : State, s.inputs = .command .reader 0x2001 :: [] ∧ busy .reader s = false ∧
      legalOn .reader 0x2001#16 = false :=
  ⟨{ State.reset with inputs := [.command .reader 0x2001] }, by decide⟩

/-- A reader blocked on its first pull. -/
def blockedReader : ReaderUnit := { reader 0 0 0 false 7 with pending := some .firstPull }

/-- A writer blocked on its push. -/
def blockedWriter : WriterUnit := { writer 8 0 7 false with pending := some 0x5A }

theorem witness_BusyPortHoldsTheWord_alone :
    ∃ s : State, s.inputs = [.command .reader 0x2000] ∧ busy .reader s = true :=
  ⟨{ withReader blockedReader [] with inputs := [.command .reader 0x2000] }, by decide⟩

theorem witness_BusyPortHoldsTheWord_passed :
    ∃ s : State, s.inputs = .command .reader 0x2000 :: .command .writer 0x8000 :: [] ∧
      busy .reader s = true ∧ busy .writer s = false ∧ decode .writer 0x8000#16 = .ok .wNew :=
  ⟨{ withReader blockedReader [] with inputs := [.command .reader 0x2000, .command .writer 0x8000] },
    by decide⟩

theorem witness_WaitingCoreIsUnchanged : State.reset.inputs = [] := by decide

theorem witness_PowerOnResetUnconstructs :
    ∃ s : State, s.inputs = .powerOnReset :: [] ∧ busy .reader s = true :=
  ⟨{ withReader blockedReader [] with inputs := [.powerOnReset] }, by decide⟩

theorem witness_AnswerAfterResetIsIgnored :
    ∃ s : State, s.inputs = .powerOnReset :: .pullAnswer .exhausted :: [] ∧ busy .reader s = true :=
  ⟨{ withReader blockedReader [] with inputs := [.powerOnReset, .pullAnswer .exhausted] }, by decide⟩

theorem witness_AnswerAfterResetIsIgnored_push :
    ∃ s : State, s.inputs = .powerOnReset :: .pushAnswer .ok :: [] ∧ busy .writer s = true :=
  ⟨{ withWriter blockedWriter [] with inputs := [.powerOnReset, .pushAnswer .ok] }, by decide⟩

theorem witness_RNewConstructsOrFaults_faulted :
    faultedReader.pending = none ∧ faultedReader.rstate = .faulted := by decide

/-- The counts 8 and -1 fault and the counts 0 and 7 construct, from reset. -/
theorem witness_RNewConstructsOrFaults_counts :
    State.reset.reader.pending = none ∧ State.reset.reader.rstate ≠ .faulted ∧
      ((8 : Int) < 0 ∨ (8 : Int) ≤ 8) ∧ ((-1 : Int) < 0 ∨ 8 ≤ (-1 : Int)) ∧
      (0 : Int) ≤ 7 ∧ (7 : Int) < 8 := by decide

theorem witness_RReadRefusedUnlessActive :
    State.reset.reader.pending = none ∧ State.reset.reader.rstate = .unconstructed ∧
      faultedReader.pending = none ∧ faultedReader.rstate = .faulted := by decide

/-- RReadWithinAByte, at its two ends: RCUR = TRASH = 3 surfaces (L1-2 row 13), RCUR = 2 does not (row 14). -/
theorem witness_RReadWithinAByte :
    (reader 3 0xA8 0xA8 false 3).pending = none ∧ (reader 3 0xA8 0xA8 false 3).rstate = .active ∧
      (reader 3 0xA8 0xA8 false 3).rcur ≠ 7#3 ∧ (reader 3 0xA8 0xA8 false 2).rcur ≠ 7#3 := by decide

theorem test_rRead_at_trash_boundary :
    readerView (exec .rRead (withReader (reader 3 0xA8 0xA8 false 3) [])) =
      some ([.ok true 0], 2, false, 0) := by decide

theorem witness_RReadPromotesTheLookAhead :
    ∃ s : State, s.reader.pending = none ∧ s.reader.rstate = .active ∧ s.reader.rcur = 7#3 ∧
      s.reader.lav = true ∧ s.source.answers = .byte 0x56 :: [] :=
  ⟨withReader (reader 0 0x12 0x34 true 7) [.byte 0x56], by decide⟩

theorem witness_RReadLoadsThePulledByte :
    ∃ s : State, s.reader.pending = none ∧ s.reader.rstate = .active ∧ s.reader.rcur = 7#3 ∧
      s.reader.lav = false ∧ s.source.answers = .byte 0xA0 :: .exhausted :: [] :=
  ⟨withReader (reader 0 0 0 false 7) [.byte 0xA0, .exhausted], by decide⟩

/-- RReadFirstPullOutcomes, and the clauses of WithoutTrashEveryReadPullsAgain that share its hypotheses. -/
theorem witness_RReadFirstPullOutcomes (e : ErrToken) :
    ∃ s t : State, s.reader = reader 0 0 0 false 7 ∧ s.source.answers = .exhausted :: [] ∧
      t.reader = reader 0 0 0 false 7 ∧ t.source.answers = .failed e :: [] :=
  ⟨withReader (reader 0 0 0 false 7) [.exhausted], withReader (reader 0 0 0 false 7) [.failed e],
    rfl, rfl, rfl, rfl⟩

/-- RReadWaitsForTheSource, its three clauses. -/
theorem witness_RReadWaitsForTheSource :
    (withReader (reader 0 0 0 false 7) []).source.answers = [] ∧
      (withReader (reader 0 0 0 true 7) []).reader.lav = true ∧
      (withReader (reader 0 0 0 false 7) [.byte 1]).source.answers = [.byte 1] := by decide

theorem witness_ALoadSurfacesBitSeven :
    ∃ s t : State, s.reader.pending = none ∧ s.reader.rstate = .active ∧ s.reader.rcur = 7#3 ∧
      s.reader.lav = true ∧ exec .rRead s = .next t ∧ t.readerOut = s.readerOut ++ [.ok true 0] :=
  ⟨withReader (reader 3 0x2C 0xA8 true 7) [.exhausted], _, by decide, by decide, by decide, by decide, rfl, rfl⟩

theorem witness_ALoadSurfacesBitSeven_late :
    ∃ r : ReaderUnit, r.pending = some .lookAhead ∧ r.rcur = 7#3 :=
  ⟨{ reader 3 0x2C 0xA8 true 7 with pending := some .lookAhead }, by decide⟩

/-- LookAheadFailureIsSilent and LateAnswersGiveTheSameOutcome: an idle ACTIVE reader at a byte's end. -/
theorem witness_reader_at_a_bytes_end (lav : Bool) :
    (reader 2 0 0x81 lav 7).pending = none ∧ (reader 2 0 0x81 lav 7).rstate = .active ∧
      (reader 2 0 0x81 lav 7).rcur = 7#3 ∧ (reader 2 0 0x81 lav 7).lav = lav := ⟨rfl, rfl, rfl, rfl⟩

theorem witness_RReadPullCount :
    ∃ s t : State, s.reader.pending = none ∧ exec .rRead s = .next t ∧ t.source.pulls = 2 :=
  ⟨withReader (reader 0 0 0 false 7) [.byte 0xA0, .exhausted], _, by decide, rfl, rfl⟩

/-- LateAnswersGiveTheSameOutcome, the push: a flush that waits, its answer next. -/
theorem witness_LateAnswersGiveTheSameOutcome_push :
    ∃ s t : State, s.writer.pending = none ∧ s.sink.answers = [] ∧ s.inputs = .pushAnswer .ok :: [] ∧
      exec .wFlush s = .next t ∧ t.writer.pending ≠ none :=
  ⟨{ withWriter (writer 1 0x80 6 false) [] with inputs := [.pushAnswer .ok] }, _,
    by decide, by decide, by decide, rfl, by decide⟩

/-- LateAnswersGiveTheSameOutcome, the pulls: both answers next. -/
theorem witness_LateAnswersGiveTheSameOutcome_pull :
    ∃ s : State, s.reader = reader 0 0 0 false 7 ∧ s.source.answers = [] ∧
      s.inputs = .pullAnswer (.byte 0xA0) :: .pullAnswer .exhausted :: [] :=
  ⟨{ withReader (reader 0 0 0 false 7) [] with
      inputs := [.pullAnswer (.byte 0xA0), .pullAnswer .exhausted] }, by decide⟩

/-- FinalByteThenStickyExhaustion, from the cursor 6 after the load and from its last cursor 2 with TRASH 3. -/
theorem witness_FinalByteThenStickyExhaustion :
    (reader 3 0xA8 0xA8 false 6).rcur ≠ 7#3 ∧ 1 ≤ (reader 3 0xA8 0xA8 false 6).trash.toNat ∧
      (reader 3 0xA8 0xA8 false 6).trash.toNat - 1 ≤ (reader 3 0xA8 0xA8 false 6).rcur.toNat ∧
      (reader 3 0xA8 0xA8 false 2).trash.toNat - 1 ≤ (reader 3 0xA8 0xA8 false 2).rcur.toNat := by decide

theorem witness_WithoutTrashEveryReadPullsAgain :
    (reader 0 0x81 0 false 6).trash = 0#3 ∧ (reader 0 0x81 0 false 6).rcur ≠ 7#3 ∧
      (reader 0 0x81 0 false 7).rcur = 7#3 ∧ (reader 3 0xA8 0 false 2).rcur = (reader 3 0xA8 0 false 2).trash - 1 ∧
      (withReader (reader 0 0 0 false 7) [.exhausted, .byte 0, .exhausted]).source.answers =
        List.replicate 1 .exhausted ++ [.byte 0, .exhausted] := by decide

/-- FiniteStreamBitSequence: P1 of 95 section 3, TRASH 3 over [0x2C, 0xA8] with 14 reads. -/
theorem witness_FiniteStreamBitSequence :
    ∃ s : State, (3 : Nat) ≤ 7 ∧ s.reader.pending = none ∧ s.reader.rstate ≠ .faulted ∧
      s.source.answers = [0x2C, 0xA8].map .byte ++ List.replicate (14 + 1) .exhausted ++ [] :=
  ⟨withReader ReaderUnit.reset ([0x2C, 0xA8].map .byte ++ List.replicate 15 .exhausted ++ []), by decide⟩

/-- LookAheadPullCount: the second of two bytes, read 9. -/
theorem witness_LookAheadPullCount :
    ∃ s : State, (3 : Nat) ≤ 7 ∧ 1 ≤ 2 ∧ 2 ≤ ([0x2C, 0xA8] : List Byte).length ∧ 8 * (2 - 1) < 9 ∧ 9 ≤ 8 * 2 ∧
      s.reader.pending = none ∧ s.reader.rstate ≠ .faulted ∧
      s.source.answers = [0x2C, 0xA8].map .byte ++ .exhausted :: [] :=
  ⟨withReader ReaderUnit.reset ([0x2C, 0xA8].map .byte ++ .exhausted :: []), by decide⟩

/-- FaultedReaderRefusesAll and FaultedUntilPowerOnReset. -/
theorem witness_faulted_reader_steps :
    ∃ s t : State, s.reader.rstate = .faulted ∧ s.reader.pending = none ∧ step s = .next t ∧
      t.readerOut = [.preconditionViolation] :=
  ⟨{ withReader faultedReader [] with inputs := [.command .reader 0x1003] }, _, by decide, by decide, rfl, rfl⟩

theorem witness_TrashWrittenOnlyByLegalRNew :
    ∃ s t : State, step s = .next t ∧ t.reader.trash ≠ s.reader.trash :=
  ⟨{ State.reset with inputs := [.command .reader 0x1007] }, _, rfl, by decide⟩

theorem witness_RReadFrame : ∃ s t : State, exec .rRead s = .next t ∧ t.reader.la ≠ s.reader.la :=
  ⟨withReader (reader 0 0x12 0x34 true 7) [.byte 0x56], _, rfl, by decide⟩

theorem witness_WNewConstructs : (writer 3 0xE0 4 true).pending = none := by decide

theorem witness_WriterRefusedUnlessConstructed :
    State.reset.writer.pending = none ∧ State.reset.writer.wstate = .unconstructed ∧
      Instr.wFlush.port = .writer ∧ Instr.wFlush ≠ .wNew := by decide

theorem witness_SealedWriteIsMisuse :
    (writer 3 0xA0 4 true).pending = none ∧ (writer 3 0xA0 4 true).wstate = .active ∧
      (writer 3 0xA0 4 true).sealed = true := by decide

/-- WWriteWithinAByte at the cursors 7 and 1, and WWriteCompletesAByte at 0. -/
theorem witness_WWrite_cursors :
    (writer 0 0 7 false).wcur ≠ 0#3 ∧ (writer 6 0x58 1 false).wcur ≠ 0#3 ∧
      (writer 7 0x5A 0 false).wcur = 0#3 ∧ (writer 7 0x5A 0 false).sealed = false := by decide

/-- ZeroBitWritesNothing and FlushPaddingLength: "111" written, SCR 0xE0, WCUR 4, COUNT 3 (W12). -/
theorem witness_writer_invariant :
    WriterUnit.Inv (writer 3 0xE0 4 false) ∧ (writer 3 0xE0 4 false).wcur ≠ 0#3 ∧
      (writer 3 0xE0 4 false).wcur ≠ 7#3 := by
  refine ⟨⟨by decide, fun _ => ⟨?_, by decide, by decide⟩⟩, by decide, by decide⟩
  intro i hi
  have key : ∀ j : Nat, j < 5 → (0xE0#8).getLsbD j = false := by decide
  have h4 : i ≤ 4 := hi
  exact key i (by omega)

theorem witness_CountWrapsToZero :
    ∃ s t : State, s.writer.pending = none ∧ s.writer.wstate = .active ∧ s.writer.sealed = false ∧
      s.writer.count.toNat = 2 ^ 64 - 1 ∧ exec (.wWrite 1) s = .next t ∧ t.writer.count = 0#64 :=
  ⟨withWriter (writer (BitVec.ofNat 64 (2 ^ 64 - 1)) 0x5A 0 false) [.ok], _, by decide, by decide, by decide,
    by decide, rfl, by decide⟩

/-- WFlushPushesThePartialByte at the cursors 6 and 0, WFlushAtBoundaryDoesNothing at 7. -/
theorem witness_WFlush_cursors :
    (writer 1 0x80 6 false).wcur ≠ 7#3 ∧ (writer 7 0x5A 0 false).wcur ≠ 7#3 ∧
      (writer 8 0 7 false).wcur = 7#3 ∧ (writer 8 0 7 false).wstate = .active := by decide

theorem witness_RepeatedFlushPushesAgain :
    ∃ s : State, s.writer = writer 3 0xA0 4 true ∧ s.sink.answers = [.ok, .ok] ++ [] ∧ s.writer.wcur ≠ 7#3 :=
  ⟨withWriter (writer 3 0xA0 4 true) ([.ok, .ok] ++ []), by decide⟩

theorem witness_WCountReturnsCount :
    (writer 16 0 7 false).pending = none ∧ (writer 16 0 7 false).wstate = .active ∧
      WriterUnit.reset.pending = none ∧ WriterUnit.reset.wstate = .unconstructed := by decide

theorem witness_SealClearedOnlyByWNewOrReset :
    ∃ s t : State, s.writer.sealed = true ∧ step s = .next t ∧ t.writer.sealed = false :=
  ⟨{ withWriter (writer 3 0xA0 4 true) [] with inputs := [.command .writer 0x8000] }, _, by decide, rfl, by decide⟩

theorem witness_CountCountsAcceptedBits :
    ∃ s t : State, step s = .next t ∧ t.writer.count = s.writer.count + 1 :=
  ⟨{ withWriter (writer 3 0xE0 4 false) [] with inputs := [.command .writer 0x9001] }, _, rfl, by decide⟩

/-- WriterCommandFrames, UnitsDoNotInterfere, OneResponsePerCommand, StatusesOfEveryCommand and
TransactionsOfEveryCommand: a writer command on a ready port. -/
theorem witness_writer_command :
    ∃ s t : State, Instr.wFlush.port = .writer ∧ busy .writer s = false ∧ exec .wFlush s = .next t ∧
      responses .writer t = responses .writer s ++ [.ok false 0] ∧ t.sink.pushed = s.sink.pushed ++ [0x80] :=
  ⟨withWriter (writer 1 0x80 6 false) [.ok], _, by decide, by decide, rfl, rfl, rfl⟩

/-- The same statements, a reader command on a ready port; and an answer that ends a blocked command. -/
theorem witness_reader_command :
    ∃ s t : State, Instr.rRead.port = .reader ∧ busy .reader s = false ∧ exec .rRead s = .next t ∧
      responses .reader t = responses .reader s ++ [.exhausted] :=
  ⟨withReader (reader 7 0x80 0 false 6) [], _, by decide, by decide, rfl, rfl⟩

theorem witness_answers_end_commands :
    (answerPull .exhausted (withReader blockedReader [])).readerOut = [.exhausted] ∧
      (answerPush .ok (withWriter blockedWriter [])).writerOut = [.ok false 0] := by decide

theorem witness_illegal_word_runs :
    ∃ s t : State, legalOn .writer 0x9100#16 = false ∧ runWord .writer 0x9100#16 s = .next t ∧
      responses .writer t = responses .writer s ++ [.illegalCommand] :=
  ⟨State.reset, _, by decide, rfl, rfl⟩

theorem witness_illegal_reader_word_runs :
    ∃ s t : State, legalOn .reader 0x2001#16 = false ∧ runWord .reader 0x2001#16 s = .next t ∧
      t.source = s.source :=
  ⟨State.reset, _, by decide, rfl, rfl⟩

/-- WrittenBitsArePushedAsBytes: eight values with a W.COUNT and two byte-boundary W.FLUSHes, one push. -/
theorem witness_WrittenBitsArePushedAsBytes :
    ∃ s : State, s.writer.pending = none ∧ s.sink.answers = [.ok] ++ [] ∧
      ([.ok] : List PushAnswer).length =
        (writtenBits ([.wFlush] ++ [0, 1, 0, 1, 1, 0, 1].map .wWrite ++ [.wCount, .wWrite 0, .wFlush])).length / 8 ∧
      (writtenBits []).length % 8 = 0 ∧
      (writtenBits ([.wFlush] ++ [0, 1, 0, 1, 1, 0, 1].map .wWrite ++ [.wCount, .wWrite 0])).length % 8 = 0 :=
  ⟨withWriter WriterUnit.reset ([.ok] ++ []), by decide⟩

theorem witness_WrittenBitsArePushedAsBytes_flushes :
    ∀ before after, ([.wFlush] : List Instr) = before ++ .wFlush :: after → (writtenBits before).length % 8 = 0 := by
  intro before after h
  cases before with
  | nil => rfl
  | cons i before => simp at h

theorem witness_WByteWritesTheByte :
    ∃ s : State, s.writer = writer 0 0 7 false ∧ s.sink.answers = .ok :: [] :=
  ⟨withWriter (writer 0 0 7 false) [.ok], by decide⟩

/-- WByteWritesTheByte, late: the answer is the oldest input. -/
theorem witness_WByteWritesTheByte_late :
    ∃ s : State, s.writer = writer 0 0 7 false ∧ s.sink.answers = [] ∧ s.inputs = .pushAnswer .ok :: [] :=
  ⟨{ withWriter (writer 0 0 7 false) [] with inputs := [.pushAnswer .ok] }, by decide⟩

/-- WByteWritesTheByte, the stop at once: NO_INSTANCE, MISUSE, and IO_ERROR at a byte's end. -/
theorem witness_WByteWritesTheByte_stop (e : ErrToken) :
    ∃ s t u s' t' u' : State, exec (.wWrite 1) s = .next s' ∧ s'.writerOut = s.writerOut ++ [.noInstance] ∧
      exec (.wWrite 1) t = .next t' ∧ t'.writerOut = t.writerOut ++ [.misuse] ∧
      exec (.wWrite 1) u = .next u' ∧ u'.writerOut = u.writerOut ++ [.ioError e] :=
  ⟨State.reset, withWriter (writer 3 0xA0 4 true) [], withWriter (writer 7 0x5A 0 false) [.failed e], _, _, _,
    rfl, rfl, rfl, rfl, rfl, rfl⟩

/-- WByteWritesTheByte, the wait: a W.WRITE whose push is answered next, or never. -/
theorem witness_WByteWritesTheByte_wait (inputs : List Input) :
    ∃ s t : State, busy .writer s = false ∧ exec (.wWrite 1) s = .next t ∧ busy .writer t = true ∧
      t.inputs = inputs :=
  ⟨{ withWriter (writer 7 0x5A 0 false) [] with inputs := inputs }, _, rfl, rfl, rfl, rfl⟩

/-- StepKeepsTheInvariant: an ACTIVE writer with "111" written, about to accept another bit. -/
theorem witness_StepKeepsTheInvariant :
    ∃ s t : State, s.Inv ∧ step s = .next t ∧ t.writer.count = 4#64 :=
  ⟨{ withWriter (writer 3 0xE0 4 false) [] with inputs := [.command .writer 0x9001] }, _,
    ⟨⟨by decide, by decide⟩, witness_writer_invariant.1, by decide, by decide⟩, rfl, by decide⟩

theorem witness_UnansweredTransactionHangsItsUnit :
    busy .reader (withReader blockedReader []) = true ∧ busy .writer (withWriter blockedWriter []) = true ∧
      (∀ e ∈ ([.command .reader 0x2000] : List Input),
        (∀ a, e ≠ .pullAnswer a) ∧ (∀ a, e ≠ .pushAnswer a) ∧ e ≠ .powerOnReset) := by
  refine ⟨by decide, by decide, ?_⟩
  intro e he
  simp only [List.mem_singleton] at he
  subst he
  exact ⟨nofun, nofun, nofun⟩

/-- UnansweredTransactionHangsItsUnit, the caller: an R.READ that waits, with no input. -/
theorem witness_UnansweredTransactionHangsItsUnit_caller :
    ∃ s t : State, busy .reader s = false ∧ exec .rRead s = .next t ∧ busy .reader t = true ∧
      nextInput t t.inputs = none :=
  ⟨withReader (reader 0 0x12 0x80 true 7) [], _, rfl, rfl, rfl, rfl⟩

/-- RoundTripNeedsMatchedPadding: the bits of "1110" (L1-4), whose padding is 4, and the byte 0xE0 read back. -/
theorem witness_RoundTripNeedsMatchedPadding :
    ∃ s u : State, s.writer.pending = none ∧
      s.sink.answers = List.replicate ([true, true, true, false].length / 8 + 1) .ok ++ [] ∧
      (4 : Nat) ≤ 7 ∧ 4 = paddingOf [true, true, true, false].length ∧
      u.reader.pending = none ∧ u.reader.rstate ≠ .faulted ∧
      u.source.answers = [0xE0].map .byte ++ List.replicate (8 * 1 + 1 + 1) .exhausted :=
  ⟨withWriter WriterUnit.reset (List.replicate 1 .ok ++ []),
    withReader ReaderUnit.reset ([0xE0].map .byte ++ List.replicate 10 .exhausted), by decide⟩

/-- AssembledCommandsAreWellFormed, at the two sides of 255 and in both bases. -/
theorem witness_AssembledCommandsAreWellFormed_operand :
    numberOf ['2', '5', '5'] = some 255 ∧ numberOf ['2', '5', '6'] = some 256 ∧
      numberOf ['0', 'x', '1', '0', '0'] = some 256 := by decide

theorem witness_AssembledCommandsAreWellFormed :
    assemble [['W', '.', 'N', 'E', 'W'], ['W', '.', 'B', 'I', 'T', 'S', ' ', '"', '1', '"']] =
      .ok [.wNew, .wWrite 1] := by decide

/-- UnspecifiedResetValuesAreUnobserved: two UNCONSTRUCTED units of each kind that differ, and a run. -/
theorem witness_UnspecifiedResetValuesAreUnobserved :
    ∃ (r r' : ReaderUnit) (w w' : WriterUnit) (s t : State), r ≠ r' ∧ w ≠ w' ∧
      r.rstate = .unconstructed ∧ r'.rstate = .unconstructed ∧ r.pending = none ∧ r'.pending = none ∧
      w.wstate = .unconstructed ∧ w'.wstate = .unconstructed ∧ w.pending = none ∧ w'.pending = none ∧
      Host.Core.run Sys2Proof.core 1 { s with reader := r, writer := w } = .next t ∧
      t.reader.rstate = .active :=
  ⟨ReaderUnit.reset, { ReaderUnit.reset with cur := 0x5A, lav := true }, WriterUnit.reset,
    { WriterUnit.reset with scr := 0x5A, sealed := true }, { State.reset with inputs := [.command .reader 0x1003] }, _,
    by decide, by decide, rfl, rfl, rfl, rfl, rfl, rfl, rfl, rfl, rfl, by decide⟩

theorem witness_UnspecifiedResetValuesAreUnobserved_alike :
    State.reset.Alike { State.reset with reader := { ReaderUnit.reset with cur := 0x5A, lav := true } } :=
  ⟨.inr (by decide), .inl rfl, rfl, rfl, rfl, rfl, rfl⟩

end Sys2Proof.Tests
end

/-! # The effect of a command, and the independence of the two units -/

namespace Sys2Proof.Machine

/-! ### A command is an effect behind its port's handshake -/

/-- What a command does once its port has accepted it. -/
def effect : Instr → State → State
  | .rNew t => newReader t
  | .rRead => onReader readBit
  | .wNew => fun s => complete .writer .done { s with writer := WriterUnit.constructed }
  | .wWrite v => onWriter (acceptBit v)
  | .wFlush => onWriter flushPartial
  | .wCount => onWriter fun s => complete .writer (.ok false s.writer.count) s

theorem exec_eq_accept (i : Instr) (s : State) : exec i s = .next (accept i.port s (effect i)) := by
  cases i <;> rfl

/-- A command whose port is ready has its effect. -/
theorem exec_ready (i : Instr) {s : State} (h : busy i.port s = false) : exec i s = .next (effect i s) := by
  rw [exec_eq_accept, accept_ready _ h]

/-- The next state of a command: the state as it was on a busy port, the command's effect on a ready one. -/
theorem exec_next_cases {i : Instr} {s t : State} (h : exec i s = .next t) :
    (busy i.port s = true ∧ t = s) ∨ (busy i.port s = false ∧ t = effect i s) := by
  rw [exec_eq_accept, Host.Outcome.next.injEq] at h
  rcases accept_cases i.port s (effect i) with ⟨hb, ha⟩ | ⟨hb, ha⟩
  · exact .inl ⟨hb, h ▸ ha⟩
  · exact .inr ⟨hb, h ▸ ha⟩

theorem onReader_cases (run : State → State) (s : State) :
    (∃ r, readerRefusal s.reader = some r ∧ onReader run s = complete .reader r s) ∨
    (readerRefusal s.reader = none ∧ onReader run s = run s) := by
  unfold onReader
  cases readerRefusal s.reader with
  | some r => exact .inl ⟨r, rfl, rfl⟩
  | none => exact .inr ⟨rfl, rfl⟩

theorem onWriter_cases (run : State → State) (s : State) :
    (∃ r, writerRefusal s.writer = some r ∧ onWriter run s = complete .writer r s) ∨
    (writerRefusal s.writer = none ∧ onWriter run s = run s) := by
  unfold onWriter
  cases writerRefusal s.writer with
  | some r => exact .inl ⟨r, rfl, rfl⟩
  | none => exact .inr ⟨rfl, rfl⟩

/-- R.READ is held off, refused, or runs (R152). -/
theorem execRRead_cases {s t : State} (h : exec .rRead s = .next t) :
    (busy .reader s = true ∧ t = s) ∨
    (∃ r, readerRefusal s.reader = some r ∧ t = complete .reader r s) ∨
    (readerRefusal s.reader = none ∧ t = readBit s) := by
  rcases exec_next_cases h with hheld | ⟨_, rfl⟩
  · exact .inl hheld
  · exact .inr (onReader_cases readBit s)

/-- A writer command with a lifecycle check is held off, refused, or runs (R202). -/
theorem exec_onWriter_cases {i : Instr} {run : State → State} {s t : State} (hi : i.port = .writer)
    (hrun : effect i = onWriter run) (h : exec i s = .next t) :
    (busy .writer s = true ∧ t = s) ∨
    (∃ r, writerRefusal s.writer = some r ∧ t = complete .writer r s) ∨
    (writerRefusal s.writer = none ∧ t = run s) := by
  rcases exec_next_cases h with ⟨hb, ht⟩ | ⟨_, rfl⟩
  · exact .inl ⟨hi ▸ hb, ht⟩
  · rw [hrun]
    exact .inr (onWriter_cases run s)

/-- R.NEW is refused, faults the reader, or constructs it (R151). -/
theorem newReader_cases (t : Int) (s : State) :
    (s.reader.rstate = .faulted ∧ newReader t s = complete .reader .preconditionViolation s) ∨
    (s.reader.rstate ≠ .faulted ∧ trashCount t = none ∧
      newReader t s =
        complete .reader .preconditionViolation { s with reader := { s.reader with rstate := .faulted } }) ∨
    (s.reader.rstate ≠ .faulted ∧ ∃ trash, trashCount t = some trash ∧
      newReader t s = complete .reader .done { s with reader := ReaderUnit.constructed trash }) := by
  unfold newReader
  cases hs : s.reader.rstate with
  | faulted => exact .inl ⟨rfl, rfl⟩
  | unconstructed | active =>
    cases ht : trashCount t with
    | none => exact .inr (.inl ⟨by simp, rfl, rfl⟩)
    | some trash => exact .inr (.inr ⟨by simp, trash, rfl, rfl⟩)

/-- W.WRITE past its lifecycle check: MISUSE, the push of a completed byte, or a bit within a byte (R211). -/
theorem acceptBit_cases (v : Int) (s : State) :
    (s.writer.sealed = true ∧ acceptBit v s = complete .writer .misuse s) ∨
    (s.writer.sealed = false ∧ s.writer.wcur = 0#3 ∧
      acceptBit v s =
        push (s.writer.filled v)
          { s with writer := { s.writer with count := countUp s.writer.count, scr := 0x00#8, wcur := 7#3 } }) ∨
    (s.writer.sealed = false ∧ s.writer.wcur ≠ 0#3 ∧
      acceptBit v s =
        complete .writer .done
          { s with
            writer :=
              { s.writer with
                count := countUp s.writer.count
                scr := s.writer.filled v
                wcur := cursorDown s.writer.wcur } }) := by
  cases hs : s.writer.sealed with
  | true => exact .inl ⟨rfl, by simp [acceptBit, hs]⟩
  | false =>
    by_cases hc : s.writer.wcur = 0#3
    · exact .inr (.inl ⟨rfl, hc, by simp [acceptBit, hs, WriterUnit.lastBit, hc]⟩)
    · exact .inr (.inr ⟨rfl, hc, by simp [acceptBit, hs, WriterUnit.lastBit, hc]⟩)

/-- W.FLUSH past its lifecycle check: nothing at a byte boundary, else the seal and a push (R221, R222). -/
theorem flushPartial_cases (s : State) :
    (s.writer.wcur = 7#3 ∧ flushPartial s = complete .writer .done s) ∨
    (s.writer.wcur ≠ 7#3 ∧
      flushPartial s = push s.writer.scr { s with writer := { s.writer with sealed := true } }) := by
  by_cases hc : s.writer.wcur = 7#3
  · exact .inl ⟨hc, by simp [flushPartial, WriterUnit.atBoundary, hc]⟩
  · exact .inr ⟨hc, by simp [flushPartial, WriterUnit.atBoundary, hc]⟩

/-- A push ends the command with a response, or waits; of the writer's registers it writes none (R75, R211). -/
theorem push_cases (b : Byte) (s : State) :
    (∃ a rest r, s.sink.answers = a :: rest ∧
      push b s = complete .writer r { s with sink := { answers := rest, pushed := s.sink.pushed ++ [b] } }) ∨
    (s.sink.answers = [] ∧
      push b s =
        { s with
          sink := { s.sink with pushed := s.sink.pushed ++ [b] }
          writer := { s.writer with pending := some b } }) := by
  cases h : s.sink.answers with
  | nil => exact .inr ⟨rfl, push_unanswered b h⟩
  | cons a rest => exact .inl ⟨a, rest, _, rfl, (push_answered b h).trans (pushAnswered_eq a _)⟩

/-! ### The other unit's side may be anything

A command of one unit runs the same whatever stands on the other unit's side and in the inputs, and keeps what
stands there. One equation says both: the command commutes with putting another state's writer side, or reader
side, in place. -/

/-- The state s with the writer side and the inputs of u. -/
def graftWriter (u s : State) : State :=
  { s with writer := u.writer, sink := u.sink, writerOut := u.writerOut, inputs := u.inputs }

/-- The state s with the reader side and the inputs of u. -/
def graftReader (u s : State) : State :=
  { s with reader := u.reader, source := u.source, readerOut := u.readerOut, inputs := u.inputs }

/-- States that agree on the reader side are grafts of each other. -/
theorem SameReaderSide.eq_graftWriter {s t : State} (h : SameReaderSide s t) : t = graftWriter t s := by
  obtain ⟨hreader, hsource, hout⟩ := h
  simp [graftWriter, ← hreader, ← hsource, ← hout]

/-- States that agree on the writer side are grafts of each other. -/
theorem SameWriterSide.eq_graftReader {s t : State} (h : SameWriterSide s t) : t = graftReader t s := by
  obtain ⟨hwriter, hsink, hout⟩ := h
  simp [graftReader, ← hwriter, ← hsink, ← hout]

theorem surface_graftWriter (u s : State) : surface (graftWriter u s) = graftWriter u (surface s) := by
  rcases surface_cases s with ⟨he, h⟩ | ⟨he, h⟩ <;> rw [h]
  · exact surface_endOfData (s := graftWriter u s) he
  · exact surface_bit (s := graftWriter u s) he

theorem pull_graftWriter (wait : PullWait) {k : PullAnswer → State → State} (u s : State)
    (hk : ∀ a s, k a (graftWriter u s) = graftWriter u (k a s)) :
    pull wait k (graftWriter u s) = graftWriter u (pull wait k s) := by
  cases h : s.source.answers with
  | nil => rw [pull_unanswered wait k h]; exact pull_unanswered (s := graftWriter u s) wait k h
  | cons a rest =>
    rw [pull_answered wait k h, ← hk]
    exact pull_answered (s := graftWriter u s) wait k h

theorem establish_graftWriter (b : Byte) (u s : State) :
    establish b (graftWriter u s) = graftWriter u (establish b s) :=
  pull_graftWriter .lookAhead u { s with reader := { s.reader with cur := b } } fun a r =>
    surface_graftWriter u { r with reader := r.reader.latch a }

theorem firstPullAnswered_graftWriter (a : PullAnswer) (u s : State) :
    firstPullAnswered a (graftWriter u s) = graftWriter u (firstPullAnswered a s) := by
  cases a with
  | byte b => exact establish_graftWriter b u s
  | exhausted | failed e => rfl

theorem readBit_graftWriter (u s : State) : readBit (graftWriter u s) = graftWriter u (readBit s) := by
  by_cases hc : s.reader.rcur = 7#3
  · cases hl : s.reader.lav with
    | true =>
      rw [readBit_promote hc hl, readBit_promote (s := graftWriter u s) hc hl]
      exact establish_graftWriter _ u s
    | false =>
      rw [readBit_firstPull hc hl, readBit_firstPull (s := graftWriter u s) hc hl]
      exact pull_graftWriter .firstPull u s fun a s => firstPullAnswered_graftWriter a u s
  · rw [readBit_within hc, readBit_within (s := graftWriter u s) hc]
    exact surface_graftWriter u s

theorem newReader_graftWriter (t : Int) (u s : State) :
    newReader t (graftWriter u s) = graftWriter u (newReader t s) := by
  unfold newReader
  cases hs : s.reader.rstate <;> cases trashCount t <;> simp [graftWriter, hs, complete]

theorem onReader_graftWriter {run : State → State} (u s : State)
    (hrun : run (graftWriter u s) = graftWriter u (run s)) :
    onReader run (graftWriter u s) = graftWriter u (onReader run s) := by
  have hreader : (graftWriter u s).reader = s.reader := rfl
  unfold onReader
  rw [hreader, hrun]
  cases readerRefusal s.reader <;> rfl

/-- A reader command runs on any writer side and any inputs, and keeps them. -/
theorem exec_graftWriter {i : Instr} {s t : State} (u : State) (hi : i.port = .reader)
    (h : exec i s = .next t) : exec i (graftWriter u s) = .next (graftWriter u t) := by
  have heffect : effect i (graftWriter u s) = graftWriter u (effect i s) := by
    cases i with
    | rNew n => exact newReader_graftWriter n u s
    | rRead => exact onReader_graftWriter u s (readBit_graftWriter u s)
    | wNew | wWrite _ | wFlush | wCount => cases hi
  have hbusy : busy i.port (graftWriter u s) = busy i.port s := by rw [hi]; rfl
  rcases exec_next_cases h with ⟨hb, rfl⟩ | ⟨hb, rfl⟩
  · exact exec_busy i (hbusy.trans hb)
  · rw [exec_ready i (hbusy.trans hb), heffect]

theorem push_graftReader (b : Byte) (u s : State) : push b (graftReader u s) = graftReader u (push b s) := by
  cases h : s.sink.answers with
  | nil => rw [push_unanswered b h]; exact push_unanswered (s := graftReader u s) b h
  | cons a rest =>
    rw [push_answered b h, push_answered (s := graftReader u s) b h, pushAnswered_eq, pushAnswered_eq]
    rfl

theorem acceptBit_graftReader (v : Int) (u s : State) :
    acceptBit v (graftReader u s) = graftReader u (acceptBit v s) := by
  have hwriter : (graftReader u s).writer = s.writer := rfl
  unfold acceptBit
  rw [hwriter]
  cases s.writer.sealed with
  | true => rfl
  | false =>
    cases s.writer.lastBit with
    | true =>
      exact push_graftReader _ u
        { s with writer := { s.writer with count := countUp s.writer.count, scr := 0x00#8, wcur := 7#3 } }
    | false => rfl

theorem flushPartial_graftReader (u s : State) :
    flushPartial (graftReader u s) = graftReader u (flushPartial s) := by
  have hwriter : (graftReader u s).writer = s.writer := rfl
  unfold flushPartial
  rw [hwriter]
  cases s.writer.atBoundary with
  | true => rfl
  | false => exact push_graftReader _ u { s with writer := { s.writer with sealed := true } }

theorem onWriter_graftReader {run : State → State} (u s : State)
    (hrun : run (graftReader u s) = graftReader u (run s)) :
    onWriter run (graftReader u s) = graftReader u (onWriter run s) := by
  have hwriter : (graftReader u s).writer = s.writer := rfl
  unfold onWriter
  rw [hwriter, hrun]
  cases writerRefusal s.writer <;> rfl

/-- A writer command runs on any reader side and any inputs, and keeps them. -/
theorem exec_graftReader {i : Instr} {s t : State} (u : State) (hi : i.port = .writer)
    (h : exec i s = .next t) : exec i (graftReader u s) = .next (graftReader u t) := by
  have heffect : effect i (graftReader u s) = graftReader u (effect i s) := by
    cases i with
    | rNew _ | rRead => cases hi
    | wNew => rfl
    | wWrite v => exact onWriter_graftReader u s (acceptBit_graftReader v u s)
    | wFlush => exact onWriter_graftReader u s (flushPartial_graftReader u s)
    | wCount => exact onWriter_graftReader u s rfl
  have hbusy : busy i.port (graftReader u s) = busy i.port s := by rw [hi]; rfl
  rcases exec_next_cases h with ⟨hb, rfl⟩ | ⟨hb, rfl⟩
  · exact exec_busy i (hbusy.trans hb)
  · rw [exec_ready i (hbusy.trans hb), heffect]

/-- A reader command keeps the writer side and the inputs. -/
theorem exec_reader_frame {i : Instr} {s t : State} (hi : i.port = .reader) (h : exec i s = .next t) :
    SameWriterSide s t ∧ t.inputs = s.inputs := by
  have hself : exec i s = .next (graftWriter s t) := exec_graftWriter s hi h
  have ht : t = graftWriter s t := by rw [h] at hself; exact Host.Outcome.next.inj hself
  rw [ht]
  exact ⟨⟨rfl, rfl, rfl⟩, rfl⟩

/-- A writer command keeps the reader side and the inputs. -/
theorem exec_writer_frame {i : Instr} {s t : State} (hi : i.port = .writer) (h : exec i s = .next t) :
    SameReaderSide s t ∧ t.inputs = s.inputs := by
  have hself : exec i s = .next (graftReader s t) := exec_graftReader s hi h
  have ht : t = graftReader s t := by rw [h] at hself; exact Host.Outcome.next.inj hself
  rw [ht]
  exact ⟨⟨rfl, rfl, rfl⟩, rfl⟩

/-- What a reader command makes of the reader side depends on the reader side only. -/
theorem exec_reader_congr {i : Instr} {s s' t t' : State} (hi : i.port = .reader) (hs : SameReaderSide s s')
    (h : exec i s = .next t) (h' : exec i s' = .next t') : SameReaderSide t t' := by
  rw [hs.eq_graftWriter, exec_graftWriter s' hi h] at h'
  cases h'
  exact ⟨rfl, rfl, rfl⟩

/-- What a writer command makes of the writer side depends on the writer side only. -/
theorem exec_writer_congr {i : Instr} {s s' t t' : State} (hi : i.port = .writer) (hs : SameWriterSide s s')
    (h : exec i s = .next t) (h' : exec i s' = .next t') : SameWriterSide t t' := by
  rw [hs.eq_graftReader, exec_graftReader s' hi h] at h'
  cases h'
  exact ⟨rfl, rfl, rfl⟩

/-- Settles O53: a command commutes with grafting another side onto the state. -/
theorem unitsDoNotInterfere : Obligations.UnitsDoNotInterfere :=
  ⟨fun _ _ _ h => ⟨fun hi => (exec_reader_frame hi h).1, fun hi => (exec_writer_frame hi h).1⟩,
   fun _ _ _ _ _ h h' =>
    ⟨fun hi hs => exec_reader_congr hi hs h h', fun hi hs => exec_writer_congr hi hs h h'⟩⟩

/-! ### The frames of R.READ, W.WRITE and W.FLUSH -/

/-- Settles O34: R.READ is held off, refused, or runs the phases whose frames Laws/Reader states. -/
theorem rReadFrame : Obligations.RReadFrame := by
  intro s t h
  obtain ⟨hside, hinputs⟩ := exec_reader_frame (i := .rRead) rfl h
  rcases execRRead_cases h with ⟨_, rfl⟩ | ⟨_, _, rfl⟩ | ⟨_, rfl⟩
  · simp [hside]
  · simp [hside]
  · obtain ⟨_, _, hrstate, htrash, hla⟩ := readBit_readFrame s
    refine ⟨hrstate, htrash, hside, hinputs, fun hc => ?_, hla⟩
    obtain ⟨_, _, hsource, _, _, hcur, hla', hlav, _⟩ := surface_frame s
    rw [readBit_within hc]
    exact ⟨hcur, hla', hlav, hsource⟩

/-- A push writes no register of the writer unit; it can only leave it waiting (R211, R221). -/
theorem push_writer (b : Byte) (s : State) : ∃ wait, (push b s).writer = { s.writer with pending := wait } := by
  rcases push_cases b s with ⟨_, _, _, _, h⟩ | ⟨_, h⟩
  · exact ⟨none, by rw [h, complete_writer_writer]⟩
  · exact ⟨some b, by rw [h]⟩

theorem acceptBit_frame (v : Int) (s : State) :
    (acceptBit v s).writer.sealed = s.writer.sealed ∧ (acceptBit v s).writer.wstate = s.writer.wstate ∧
    (s.writer.wcur ≠ 0#3 → (acceptBit v s).sink = s.sink) := by
  rcases acceptBit_cases v s with ⟨_, h⟩ | ⟨_, hc, h⟩ | ⟨_, _, h⟩ <;> rw [h]
  · simp
  · obtain ⟨wait, hw⟩ := push_writer (s.writer.filled v)
      { s with writer := { s.writer with count := countUp s.writer.count, scr := 0x00#8, wcur := 7#3 } }
    rw [hw]
    exact ⟨rfl, rfl, fun hne => absurd hc hne⟩
  · simp

theorem flushPartial_frame (s : State) :
    (flushPartial s).writer.scr = s.writer.scr ∧ (flushPartial s).writer.wcur = s.writer.wcur ∧
    (flushPartial s).writer.count = s.writer.count ∧ (flushPartial s).writer.wstate = s.writer.wstate := by
  rcases flushPartial_cases s with ⟨_, h⟩ | ⟨_, h⟩ <;> rw [h]
  · simp
  · obtain ⟨wait, hw⟩ := push_writer s.writer.scr { s with writer := { s.writer with sealed := true } }
    rw [hw]
    simp

/-- Settles O49: the reader side by the graft equation, the writer's registers by the frames of its phases. -/
theorem writerCommandFrames : Obligations.WriterCommandFrames := by
  refine ⟨fun _ _ _ => exec_writer_frame, fun v s t h => ?_, fun s t h => ?_⟩
  · rcases exec_onWriter_cases rfl rfl h with ⟨_, rfl⟩ | ⟨_, _, rfl⟩ | ⟨_, rfl⟩
    · simp
    · simp
    · exact acceptBit_frame v s
  · rcases exec_onWriter_cases rfl rfl h with ⟨_, rfl⟩ | ⟨_, _, rfl⟩ | ⟨_, rfl⟩
    · simp
    · simp
    · exact flushPartial_frame s

/-! ### One response, or none and in progress -/

/-- From s to t the port has delivered one response and is ready, or has delivered none and is busy. -/
def AnsweredOrBusy (p : Port) (s t : State) : Prop :=
  (busy p t = false ∧ ∃ r, responses p t = responses p s ++ [r]) ∨
  (busy p t = true ∧ responses p t = responses p s)

/-- A command that has delivered nothing yet and now completes has delivered its one response (R12). -/
theorem complete_answered (p : Port) (r : Response) {s t : State} (h : responses p t = responses p s) :
    AnsweredOrBusy p s (complete p r t) := by
  refine .inl ?_
  cases p with
  | reader => exact ⟨rfl, r, congrArg (· ++ [r]) h⟩
  | writer => exact ⟨rfl, r, congrArg (· ++ [r]) h⟩

theorem surface_answered {s t : State} (h : t.readerOut = s.readerOut) :
    AnsweredOrBusy .reader s (surface t) := by
  rcases surface_cases t with ⟨_, ht⟩ | ⟨_, ht⟩ <;> rw [ht] <;> exact complete_answered .reader _ h

theorem establish_answered (b : Byte) {s t : State} (h : t.readerOut = s.readerOut) :
    AnsweredOrBusy .reader s (establish b t) := by
  rcases establish_cases b t with ⟨_, _, _, ht⟩ | ⟨_, ht⟩ <;> rw [ht]
  · exact surface_answered h
  · exact .inr ⟨rfl, h⟩

theorem firstPullAnswered_answered (a : PullAnswer) {s t : State} (h : t.readerOut = s.readerOut) :
    AnsweredOrBusy .reader s (firstPullAnswered a t) := by
  cases a with
  | byte b => exact establish_answered b h
  | exhausted | failed e => exact complete_answered .reader _ h

theorem readBit_answered (s : State) : AnsweredOrBusy .reader s (readBit s) := by
  rcases readBit_cases s with ⟨_, h⟩ | ⟨_, _, h⟩ | ⟨_, _, _, h⟩ | ⟨_, _, a, _, _, h⟩ <;> rw [h]
  · exact surface_answered rfl
  · exact establish_answered _ rfl
  · exact .inr ⟨rfl, rfl⟩
  · exact firstPullAnswered_answered a rfl

theorem push_answered_or_busy (b : Byte) {s t : State} (h : t.writerOut = s.writerOut) :
    AnsweredOrBusy .writer s (push b t) := by
  rcases push_cases b t with ⟨_, _, r, _, ht⟩ | ⟨_, ht⟩ <;> rw [ht]
  · exact complete_answered .writer r h
  · exact .inr ⟨rfl, h⟩

theorem newReader_answered (n : Int) (s : State) : AnsweredOrBusy .reader s (newReader n s) := by
  rcases newReader_cases n s with ⟨_, h⟩ | ⟨_, _, h⟩ | ⟨_, _, _, h⟩ <;> rw [h] <;>
    exact complete_answered .reader _ rfl

theorem acceptBit_answered (v : Int) (s : State) : AnsweredOrBusy .writer s (acceptBit v s) := by
  rcases acceptBit_cases v s with ⟨_, h⟩ | ⟨_, _, h⟩ | ⟨_, _, h⟩ <;> rw [h]
  · exact complete_answered .writer _ rfl
  · exact push_answered_or_busy _ rfl
  · exact complete_answered .writer _ rfl

theorem flushPartial_answered (s : State) : AnsweredOrBusy .writer s (flushPartial s) := by
  rcases flushPartial_cases s with ⟨_, h⟩ | ⟨_, h⟩ <;> rw [h]
  · exact complete_answered .writer _ rfl
  · exact push_answered_or_busy _ rfl

theorem onReader_answered {run : State → State} {s : State} (hrun : AnsweredOrBusy .reader s (run s)) :
    AnsweredOrBusy .reader s (onReader run s) := by
  rcases onReader_cases run s with ⟨r, _, h⟩ | ⟨_, h⟩ <;> rw [h]
  · exact complete_answered .reader r rfl
  · exact hrun

theorem onWriter_answered {run : State → State} {s : State} (hrun : AnsweredOrBusy .writer s (run s)) :
    AnsweredOrBusy .writer s (onWriter run s) := by
  rcases onWriter_cases run s with ⟨r, _, h⟩ | ⟨_, h⟩ <;> rw [h]
  · exact complete_answered .writer r rfl
  · exact hrun

/-- A command that has been accepted answers once, or is in progress. -/
theorem effect_answered (i : Instr) (s : State) : AnsweredOrBusy i.port s (effect i s) := by
  cases i with
  | rNew n => exact newReader_answered n s
  | rRead => exact onReader_answered (readBit_answered s)
  | wNew => exact complete_answered .writer _ rfl
  | wWrite v => exact onWriter_answered (acceptBit_answered v s)
  | wFlush => exact onWriter_answered (flushPartial_answered s)
  | wCount => exact onWriter_answered (complete_answered .writer _ rfl)

/-- Settles O54: every phase that a command's effect comes down to completes once or waits. -/
theorem oneResponsePerCommand : Obligations.OneResponsePerCommand := by
  intro i s t hready h
  rw [exec_ready i hready, Host.Outcome.next.injEq] at h
  exact h ▸ effect_answered i s

end Sys2Proof.Machine

/-! # The bits of the two streams, in order -/

namespace Sys2Proof.Machine

/-! ### Reading

The bits that the reader has still to surface stand, in order, in CUR below its cursor, in LA, and in the bytes
that the source will deliver. An R.READ takes the first of them. -/

/-- The bits of CUR that are still to be surfaced: RCUR + 1 of them, and none at RCUR = 7 (R37). -/
def ReaderUnit.unread (r : ReaderUnit) : List Bool := (bitsOf r.cur).drop (8 - (r.rcur + 1).toNat)

/-- The bits that the look-ahead byte holds, if there is one (R36). -/
def ReaderUnit.lookAheadBits (r : ReaderUnit) : List Bool := if r.lav then bitsOf r.la else []

/-- An idle ACTIVE reader with the given bits still to come, the trash bits included: its source holds the rest of
the stream and then its end, or has delivered its final byte into CUR. -/
structure Delivering (bits : List Bool) (s : State) : Prop where
  idle : s.reader.pending = none
  active : s.reader.rstate = .active
  remaining : ∃ bytes : List Byte,
    bits = s.reader.unread ++ s.reader.lookAheadBits ++ bytes.flatMap bitsOf ∧
    (((s.reader.lav = true ∨ s.reader.rcur = 7#3) ∧
        ∃ rest, s.source.answers = bytes.map .byte ++ .exhausted :: rest) ∨
      (s.reader.lav = false ∧ bytes = []))

theorem Delivering.ready {bits : List Bool} {s : State} (h : Delivering bits s) : busy .reader s = false :=
  congrArg Option.isSome h.idle

theorem unread_of_rcur_seven {r : ReaderUnit} (h : r.rcur = 7#3) : r.unread = [] := by
  rw [ReaderUnit.unread, h]
  rfl

/-- Below 7 the cursor has RCUR + 1 bits left. -/
theorem toNat_add_one_of_ne_seven {c : Cursor} (h : c ≠ 7#3) : (c + 1).toNat = c.toNat + 1 := by
  revert c
  decide

/-- The next bit of CUR is the one at RCUR, and the others are those below it (R162). -/
theorem unread_eq_cons {r : ReaderUnit} (h : r.rcur ≠ 7#3) :
    r.unread = r.currentBit :: ReaderUnit.unread { r with rcur := cursorDown r.rcur } := by
  have hcount := toNat_add_one_of_ne_seven h
  have hlt : 7 - r.rcur.toNat < 8 := by omega
  have hbit : (bitsOf r.cur)[7 - r.rcur.toNat]? = some r.currentBit := by
    rw [bitsOf_getElem? hlt, show 7 - (7 - r.rcur.toNat) = r.rcur.toNat by omega]
    rfl
  have hdown : cursorDown r.rcur + 1 = r.rcur := BitVec.sub_add_cancel _ _
  obtain ⟨hlen, hget⟩ := List.getElem?_eq_some_iff.mp hbit
  simp only [ReaderUnit.unread, hdown, hcount]
  rw [show 8 - (r.rcur.toNat + 1) = 7 - r.rcur.toNat by omega, List.drop_eq_getElem_cons hlen, hget,
    show 7 - r.rcur.toNat + 1 = 8 - r.rcur.toNat by omega]

/-- With the cursor just moved down from RCUR there are RCUR bits left. -/
theorem unread_down_length (r : ReaderUnit) :
    (ReaderUnit.unread { r with rcur := cursorDown r.rcur }).length = r.rcur.toNat := by
  have hdown : cursorDown r.rcur + 1 = r.rcur := BitVec.sub_add_cancel _ _
  have hlen : (bitsOf r.cur).length = 8 := rfl
  simp only [ReaderUnit.unread, hdown, List.length_drop, hlen]
  omega

/-- A legal R.NEW makes the whole stream the bits to come (R151). -/
theorem exec_rNew_delivering {τ : Nat} {bytes : List Byte} {rest : List PullAnswer} {s : State} (hτ : τ ≤ 7)
    (hidle : s.reader.pending = none) (hnew : s.reader.rstate ≠ .faulted)
    (hsource : s.source.answers = bytes.map .byte ++ .exhausted :: rest) :
    ∃ t, exec (.rNew τ) s = .next t ∧ t.readerOut = s.readerOut ++ [.ok false 0] ∧
      t.reader.trash.toNat = τ ∧ Delivering (bytes.flatMap bitsOf) t := by
  have hcount : trashCount τ = some (BitVec.ofNat 3 τ) := by
    simp [trashCount, Config.trashMax, hτ]
  rw [execRNew_ready τ hidle]
  rcases newReader_cases τ s with ⟨hf, _⟩ | ⟨_, hnone, _⟩ | ⟨_, trash, hsome, h⟩
  · exact absurd hf hnew
  · rw [hcount] at hnone
    cases hnone
  · obtain rfl : BitVec.ofNat 3 τ = trash := Option.some.inj (hcount.symm.trans hsome)
    refine ⟨_, congrArg _ h, rfl, ?_, rfl, rfl, bytes, ?_, .inl ⟨.inr rfl, rest, hsource⟩⟩
    · simp [ReaderUnit.constructed]
      omega
    · rw [unread_of_rcur_seven rfl]
      rfl

/-- A load surfaces bit 7 of its byte and latches what comes next: a byte, or the end of the stream (R160, R165). -/
theorem establish_delivering (b : Byte) {bytes : List Byte} {rest : List PullAnswer} {s : State}
    (hactive : s.reader.rstate = .active) (hcur : s.reader.rcur = 7#3)
    (hsource : s.source.answers = bytes.map .byte ++ .exhausted :: rest) :
    (establish b s).readerOut = s.readerOut ++ [.ok (b.getLsbD 7) 0] ∧
    (establish b s).reader.trash = s.reader.trash ∧
    Delivering ((bitsOf b).tail ++ bytes.flatMap bitsOf) (establish b s) := by
  rcases establish_cases b s with ⟨a, later, ha, h⟩ | ⟨hnone, _⟩
  · rw [surface_load (by simpa using hcur)] at h
    rw [h]
    refine ⟨by simp, by simp, rfl, by simpa using hactive, ?_⟩
    cases bytes with
    | nil =>
      obtain ⟨rfl, _⟩ := List.cons.inj (ha.symm.trans hsource)
      exact ⟨[], rfl, .inr ⟨rfl, rfl⟩⟩
    | cons c bytes =>
      obtain ⟨rfl, hlater⟩ := List.cons.inj (ha.symm.trans hsource)
      exact ⟨bytes, rfl, .inl ⟨.inl rfl, rest, hlater⟩⟩
  · simp [hnone] at hsource

/-- R.READ past its lifecycle check surfaces the next bit, while more bits are left than trash bits (R160). -/
theorem readBit_delivering {x : Bool} {bits : List Bool} {s : State} (h : Delivering (x :: bits) s)
    (htrash : s.reader.trash.toNat ≤ bits.length) :
    (readBit s).readerOut = s.readerOut ++ [.ok x 0] ∧ (readBit s).reader.trash = s.reader.trash ∧
    Delivering bits (readBit s) := by
  obtain ⟨_, hactive, bytes, hbits, hsource⟩ := h
  by_cases hcur : s.reader.rcur = 7#3
  · rw [unread_of_rcur_seven hcur, List.nil_append] at hbits
    cases hlav : s.reader.lav with
    | true =>
      rw [ReaderUnit.lookAheadBits, if_pos hlav] at hbits
      obtain ⟨rfl, rfl⟩ := List.cons.inj hbits
      rcases hsource with ⟨_, rest, hanswers⟩ | ⟨hno, _⟩
      · rw [readBit_promote hcur hlav]
        exact establish_delivering _ hactive hcur hanswers
      · rw [hlav] at hno
        cases hno
    | false =>
      rw [ReaderUnit.lookAheadBits, if_neg (by simp [hlav]), List.nil_append] at hbits
      cases bytes with
      | nil => cases hbits
      | cons b bytes =>
        obtain ⟨rfl, rfl⟩ := List.cons.inj hbits
        rcases hsource with ⟨_, rest, hanswers⟩ | ⟨_, hnil⟩
        · rw [readBit_firstPull hcur hlav, pull_answered _ _ hanswers]
          exact establish_delivering b hactive hcur rfl
        · cases hnil
  · rw [unread_eq_cons hcur] at hbits
    obtain ⟨rfl, rfl⟩ := List.cons.inj hbits
    have hdata : s.reader.endOfData = false := by
      rcases hsource with ⟨hlav | hc, _⟩ | ⟨hlav, rfl⟩
      · simp [ReaderUnit.endOfData, hlav]
      · exact absurd hc hcur
      · have hleft : s.reader.trash.toNat ≤ s.reader.rcur.toNat := by
          rw [← unread_down_length s.reader]
          simpa [ReaderUnit.lookAheadBits, hlav] using htrash
        simp [ReaderUnit.endOfData, BitVec.lt_def, hleft]
    rw [readBit_within hcur, surface_bit hdata]
    refine ⟨rfl, rfl, rfl, hactive, bytes, rfl, ?_⟩
    rcases hsource with ⟨hlav | hc, hrest⟩ | hfinal
    · exact .inl ⟨.inl hlav, hrest⟩
    · exact absurd hc hcur
    · exact .inr hfinal

/-- R.READs surface the bits to come in their order, while the trash bits stay behind (R169). -/
theorem runAll_reads_delivering (shown tail : List Bool) {s : State} (h : Delivering (shown ++ tail) s)
    (htrash : s.reader.trash.toNat ≤ tail.length) :
    ∃ t, runAll (List.replicate shown.length .rRead) s = .next t ∧
      t.readerOut = s.readerOut ++ shown.map (fun x => .ok x 0) ∧ t.reader.trash = s.reader.trash ∧
      Delivering tail t := by
  induction shown generalizing s with
  | nil => exact ⟨s, rfl, by simp, rfl, h⟩
  | cons x shown ih =>
    obtain ⟨hout, htrash', hnext⟩ := readBit_delivering h (by simp; omega)
    obtain ⟨t, hrun, houts, htrash'', hdone⟩ := ih hnext (by rw [htrash']; exact htrash)
    refine ⟨t, ?_, by rw [houts, hout]; simp, htrash''.trans htrash', hdone⟩
    rw [← hrun]
    exact runAll_cons (i := .rRead) _ h.ready (execRRead_active h.idle h.active) hnext.ready

/-! ### Writing -/

/-- An idle ACTIVE writer with the given bits in its partial byte, in order and nothing else (R49, R211). -/
structure Filling (bits : List Bool) (w : WriterUnit) : Prop where
  idle : w.pending = none
  active : w.wstate = .active
  unsealed : w.sealed = false
  scr : w.scr = placeBits 7 bits
  wcur : w.wcur.toNat + bits.length = 7

theorem Filling.ready {bits : List Bool} {s : State} (h : Filling bits s.writer) : busy .writer s = false :=
  congrArg Option.isSome h.idle

/-- A further bit stands one position below the others. -/
theorem placeBits_snoc (i : Nat) (bits : List Bool) (c : Bool) :
    placeBits i (bits ++ [c]) = placeBits i bits ||| (if c then 1#8 <<< (i - bits.length) else 0) := by
  induction bits generalizing i with
  | nil => simp [placeBits]
  | cons b bits ih =>
    rw [List.cons_append, placeBits, placeBits, ih, BitVec.or_assoc, List.length_cons, Nat.sub_sub, Nat.add_comm 1]

/-- Filling in one more bit (R211). -/
theorem Filling.filled {bits : List Bool} {w : WriterUnit} (h : Filling bits w) (v : Int) :
    w.filled v = placeBits 7 (bits ++ [operandBit v]) := by
  have hcur : w.wcur.toNat = 7 - bits.length := by have := h.wcur; omega
  rw [placeBits_snoc, WriterUnit.filled, setBit, h.scr, hcur]
  cases operandBit v <;> simp

theorem constructed_filling : Filling [] WriterUnit.constructed := ⟨rfl, rfl, rfl, rfl, rfl⟩

/-- A W.WRITE within a byte puts its bit behind the others and pushes nothing (R211). -/
theorem exec_wWrite_within (v : Int) {bits : List Bool} {s : State} (h : Filling bits s.writer)
    (hlen : bits.length < 7) :
    ∃ t, exec (.wWrite v) s = .next t ∧ t.sink = s.sink ∧ t.writer.count = countUp s.writer.count ∧
      Filling (bits ++ [operandBit v]) t.writer := by
  have hwcur := h.wcur
  have hdown : ∀ c : Cursor, c.toNat ≠ 0 → (cursorDown c).toNat + 1 = c.toNat := by decide
  rw [execWWrite_active v h.idle h.active]
  rcases acceptBit_cases v s with ⟨hs, _⟩ | ⟨_, hc, _⟩ | ⟨_, hc, ht⟩
  · exact absurd (h.unsealed.symm.trans hs) (by simp)
  · rw [hc] at hwcur
    simp at hwcur
    omega
  · refine ⟨_, congrArg _ ht, rfl, rfl, rfl, h.active, h.unsealed, h.filled v, ?_⟩
    have := hdown s.writer.wcur (by omega)
    simp
    omega

/-- The eighth W.WRITE pushes the byte of the eight bits and starts a new one, whatever the sink answers (R211). -/
theorem exec_wWrite_completes (v : Int) {bits : List Bool} {a : PushAnswer} {rest : List PushAnswer} {s : State}
    (h : Filling bits s.writer) (hlen : bits.length = 7) (hsink : s.sink.answers = a :: rest) :
    ∃ t, exec (.wWrite v) s = .next t ∧
      t.sink = { answers := rest, pushed := s.sink.pushed ++ [placeBits 7 (bits ++ [operandBit v])] } ∧
      t.writer.count = countUp s.writer.count ∧ Filling [] t.writer := by
  have hwcur := h.wcur
  rw [execWWrite_active v h.idle h.active]
  rcases acceptBit_cases v s with ⟨hs, _⟩ | ⟨_, _, ht⟩ | ⟨_, hc, _⟩
  · exact absurd (h.unsealed.symm.trans hs) (by simp)
  · replace ht := Eq.trans ht (Eq.trans (push_answered _ hsink) (pushAnswered_eq a _))
    exact ⟨_, congrArg _ ht, by rw [← h.filled]; rfl, rfl, rfl, h.active, h.unsealed, rfl, rfl⟩
  · exact absurd (BitVec.eq_of_toNat_eq (by simp; omega)) hc

/-- Fewer than eight bits are no whole byte. -/
theorem wholeBytes_of_short {bits : List Bool} (h : bits.length < 8) : wholeBytes bits = [] := by
  match bits, h with
  | [], _ | [_], _ | [_, _], _ | [_, _, _], _ | [_, _, _, _], _ | [_, _, _, _, _], _ | [_, _, _, _, _, _], _
  | [_, _, _, _, _, _, _], _ => rfl
  | _ :: _ :: _ :: _ :: _ :: _ :: _ :: _ :: _, h => simp at h; omega

theorem wholeBytes_of_eight {bits : List Bool} (rest : List Bool) (h : bits.length = 8) :
    wholeBytes (bits ++ rest) = placeBits 7 bits :: wholeBytes rest := by
  match bits, h with
  | [_, _, _, _, _, _, _, _], _ => rfl

/-- W.WRITEs push the whole bytes of the bits in the partial byte and of those they write, whatever the sink
answers (R214). -/
theorem runAll_writes_filling (values : List Int) {bits : List Bool} {now rest : List PushAnswer} {s : State}
    (h : Filling bits s.writer) (hsink : s.sink.answers = now ++ rest)
    (hnow : now.length = (bits.length + values.length) / 8) :
    ∃ t, runAll (values.map .wWrite) s = .next t ∧
      t.sink =
        { answers := rest, pushed := s.sink.pushed ++ wholeBytes (bits ++ values.map operandBit) } := by
  induction values generalizing bits now s with
  | nil =>
    have hshort : bits.length < 8 := by have := h.wcur; omega
    obtain rfl : now = [] := List.length_eq_zero_iff.mp (by simp at hnow; omega)
    refine ⟨s, rfl, ?_⟩
    rw [List.map_nil, List.append_nil, wholeBytes_of_short hshort, List.append_nil, ← List.nil_append rest, ← hsink]
  | cons v values ih =>
    rw [List.map_cons, List.map_cons, List.append_cons bits]
    rw [List.length_cons] at hnow
    by_cases hlen : bits.length = 7
    · obtain ⟨a, now, rfl⟩ : ∃ a later, now = a :: later := List.exists_cons_of_length_pos (by omega)
      obtain ⟨t, hexec, hpushed, _, hnext⟩ := exec_wWrite_completes v h hlen hsink
      rw [List.length_cons] at hnow
      obtain ⟨u, hrun, hu⟩ := ih (now := now) hnext (by rw [hpushed]; rfl) (by simp; omega)
      refine ⟨u, (runAll_cons (i := .wWrite v) _ h.ready hexec hnext.ready).trans hrun, ?_⟩
      rw [hu, hpushed, List.nil_append, wholeBytes_of_eight _ (by simp [hlen]), List.append_assoc,
        List.singleton_append]
    · have hshort : bits.length < 7 := by have := h.wcur; omega
      obtain ⟨t, hexec, hsame, _, hnext⟩ := exec_wWrite_within v h hshort
      obtain ⟨u, hrun, hu⟩ := ih hnext (hsame ▸ hsink) (by simp; omega)
      exact ⟨u, (runAll_cons (i := .wWrite v) _ h.ready hexec hnext.ready).trans hrun, hsame ▸ hu⟩

/-! ### The bit order of both units -/

/-- The n-th bit surfaced is the n-th of the stream's bits, which `flatMap_bitsOf_getElem?` finds in its byte (R8). -/
theorem readStream_msbFirst {bytes : List Byte} {n : Nat} {b : Byte} {rest : List PullAnswer} {s : State}
    (hb : bytes[n / 8]? = some b) (hidle : s.reader.pending = none) (hnew : s.reader.rstate ≠ .faulted)
    (hsource : s.source.answers = bytes.map .byte ++ .exhausted :: rest) :
    ∃ t, runAll (.rNew 0 :: List.replicate (n + 1) .rRead) s = .next t ∧
      t.readerOut[s.readerOut.length + 1 + n]? = some (.ok (b.getLsbD (7 - n % 8)) 0) := by
  have hbit : (bytes.flatMap bitsOf)[n]? = some (b.getLsbD (7 - n % 8)) := by
    rw [flatMap_bitsOf_getElem?, hb]
    rfl
  have hlen : n < (bytes.flatMap bitsOf).length := (List.getElem?_eq_some_iff.mp hbit).1
  obtain ⟨u, hexec, hout, htrash, hu⟩ :=
    exec_rNew_delivering (Nat.zero_le 7) hidle hnew hsource
  rw [← List.take_append_drop (n + 1) (bytes.flatMap bitsOf)] at hu
  obtain ⟨t, hrun, houts, _, _⟩ := runAll_reads_delivering _ _ hu (by omega)
  rw [List.length_take, Nat.min_eq_left hlen] at hrun
  refine ⟨t, ?_, ?_⟩
  · rw [← hrun]
    exact runAll_cons (i := .rNew 0) _ (congrArg Option.isSome hidle) hexec hu.ready
  · have hpos : s.readerOut.length + 1 + n = u.readerOut.length + n := by simp [hout]
    rw [houts, hpos, List.getElem?_append_right (by omega), Nat.add_sub_cancel_left, List.getElem?_map,
      List.getElem?_take_of_succ, hbit]
    rfl

/-- The bytes pushed are the whole bytes of the bits written, in which `wholeBytes_getElem?` finds the n-th (R8). -/
theorem writeStream_msbFirst {values : List Int} {rest : List PushAnswer} {s : State}
    (hidle : s.writer.pending = none)
    (hsink : s.sink.answers = List.replicate (values.length / 8) .ok ++ rest) :
    ∃ t, runAll (.wNew :: values.map .wWrite) s = .next t ∧
      ∀ (n : Nat) (v : Int), n / 8 < values.length / 8 → values[n]? = some v →
        ∃ b, t.sink.pushed[s.sink.pushed.length + n / 8]? = some b ∧
          b.getLsbD (7 - n % 8) = decide (v ≠ 0) := by
  obtain ⟨t, hrun, ht⟩ := runAll_writes_filling values
    (s := complete .writer .done { s with writer := WriterUnit.constructed }) constructed_filling hsink (by simp)
  refine ⟨t, ?_, fun n v hn hv => ?_⟩
  · rw [← hrun]
    exact runAll_cons (i := .wNew) _ (congrArg Option.isSome hidle) (execWNew_ready hidle) rfl
  · have hbit : ((wholeBytes (values.map operandBit))[n / 8]?).map (fun b => b.getLsbD (7 - n % 8)) =
        some (operandBit v) := by
      rw [wholeBytes_getElem? _ (by simpa using hn), List.getElem?_map, hv]
      rfl
    obtain ⟨b, hb, hvalue⟩ := Option.map_eq_some_iff.mp hbit
    refine ⟨b, ?_, hvalue⟩
    rw [ht]
    simpa [List.getElem?_append_right] using hb

/-- Settles O6: R.READs take the bits to come from the front, and W.WRITEs fill bytes from bit 7 down. -/
theorem streamBitsAreMsbFirst : Obligations.StreamBitsAreMsbFirst :=
  ⟨fun _ _ _ _ _ => readStream_msbFirst, fun _ _ _ => writeStream_msbFirst⟩

end Sys2Proof.Machine

/-! # What every step keeps -/

namespace Sys2Proof

/-! ### A port decodes commands of its own unit -/

theorem withoutOperand_eq_ok {w : Word} {i j : Instr} (h : withoutOperand w i = .ok j) : j = i := by
  unfold withoutOperand at h
  split at h <;> cases h
  rfl

theorem port_of_decodeReader {w : Word} {i : Instr} (h : decodeReader w = .ok i) : i.port = .reader := by
  unfold decodeReader at h
  split_ifs at h
  · cases h; rfl
  · rw [withoutOperand_eq_ok h]; rfl

theorem port_of_decodeWriter {w : Word} {i : Instr} (h : decodeWriter w = .ok i) : i.port = .writer := by
  unfold decodeWriter at h
  split_ifs at h
  · rw [withoutOperand_eq_ok h]; rfl
  · cases h; rfl
  · rw [withoutOperand_eq_ok h]; rfl
  · rw [withoutOperand_eq_ok h]; rfl

/-- A port decodes only commands of its own unit (R112, R123). -/
theorem port_of_decode {p : Port} {w : Word} {i : Instr} (h : decode p w = .ok i) : i.port = p := by
  unfold decode at h
  split_ifs at h
  cases p with
  | reader => exact port_of_decodeReader h
  | writer => exact port_of_decodeWriter h

end Sys2Proof

namespace Sys2Proof.Machine

/-! ### What a step can do -/

/-- Everything that a step from s to t can be: it waits, or it takes one input, whatever inputs then stay. -/
inductive StepOutcome (s : State) : State → Prop where
  /-- No input can be taken (R292). -/
  | waits : StepOutcome s s
  /-- The input is a legal word of a ready port (R123). -/
  | runs (i : Instr) (rest : List Input) (htakes : TakesCommand i s)
    (hready : busy i.port { s with inputs := rest } = false) :
    StepOutcome s (effect i { s with inputs := rest })
  /-- The input is an illegal word of a ready port (R116). -/
  | illegal (p : Port) (rest : List Input) :
    StepOutcome s (complete p .illegalCommand { s with inputs := rest })
  /-- The source answers (R75). -/
  | pullAnswer (a : PullAnswer) (rest : List Input) : StepOutcome s (answerPull a { s with inputs := rest })
  /-- The sink answers (R75). -/
  | pushAnswer (a : PushAnswer) (rest : List Input) : StepOutcome s (answerPush a { s with inputs := rest })
  /-- Power-on reset (R290). -/
  | resets (rest : List Input) (htakes : TakesReset s) : StepOutcome s (powerOn { s with inputs := rest })

theorem busy_inputs (p : Port) (s : State) (rest : List Input) : busy p { s with inputs := rest } = busy p s := by
  cases p <;> rfl

theorem step_outcome {s t : State} (h : step s = .next t) : StepOutcome s t := by
  rcases step_cases s with ⟨_, hs⟩ | ⟨e, rest, hnext, hs⟩
  · obtain rfl : s = t := Host.Outcome.next.inj (hs.symm.trans h)
    exact .waits
  · have htakes := (nextInput_spec hnext).1
    rw [hs] at h
    cases e with
    | command p w =>
      have hready : busy p { s with inputs := rest } = false := by simpa [takes, busy_inputs] using htakes
      simp only [deliver, runWord] at h
      cases hd : decode p w with
      | ok i =>
        obtain rfl := port_of_decode hd
        rw [hd] at h
        obtain rfl := Host.Outcome.next.inj ((exec_ready i hready).symm.trans h)
        exact .runs i rest ⟨_, w, rest, hnext, hd⟩ hready
      | error _ =>
        rw [hd] at h
        simp only [accept_ready _ hready, Host.Outcome.next.injEq] at h
        exact h ▸ .illegal p rest
    | pullAnswer a => cases h; exact .pullAnswer a rest
    | pushAnswer a => cases h; exact .pushAnswer a rest
    | powerOnReset => cases h; exact .resets rest ⟨rest, hnext⟩

/-! ### The invariant -/

theorem ReaderUnit.constructed_inv (trash : BitVec 3) : (ReaderUnit.constructed trash).Inv := by
  simp [ReaderUnit.Inv, ReaderUnit.constructed]

theorem WriterUnit.constructed_inv : WriterUnit.constructed.Inv := by
  simp [WriterUnit.Inv, WriterUnit.constructed]

theorem newReader_inv (n : Int) {s : State} (h : s.Inv) (hidle : s.reader.pending = none) :
    (newReader n s).Inv := by
  have ⟨_, hw, _, hsink⟩ := h
  rcases newReader_cases n s with ⟨_, ht⟩ | ⟨_, _, ht⟩ | ⟨_, trash, _, ht⟩ <;> rw [ht]
  · exact complete_inv _ _ h
  · refine complete_inv _ _ ⟨⟨fun _ => hidle, fun ha => ?_⟩, hw, fun hp => absurd hidle hp, hsink⟩
    cases ha
  · exact complete_inv _ _ ⟨ReaderUnit.constructed_inv trash, hw, fun hp => absurd rfl hp, hsink⟩

theorem readBit_inv {s : State} (h : s.Inv) (ha : s.reader.rstate = .active) : (readBit s).Inv :=
  inv_of_readerPart h (readBit_readFrame s).1 (readBit_readerPart ha h.1)

/-- Below a byte's last bit the cursor goes down without wrapping (R41). -/
theorem cursorDown_toNat : ∀ {c : Cursor}, c ≠ 0#3 → (cursorDown c).toNat + 1 = c.toNat := by
  decide

/-- The bit at WCUR is placed, within a byte (R49, R50, R211). -/
theorem WriterUnit.Inv.bitPlaced (v : Int) {w : WriterUnit} (h : w.Inv) (hunsealed : w.sealed = false)
    (hc : w.wcur ≠ 0#3) :
    WriterUnit.Inv
      { w with count := countUp w.count, scr := w.filled v, wcur := cursorDown w.wcur } := by
  obtain ⟨hidle, hactive⟩ := h
  have hdown := cursorDown_toNat hc
  refine ⟨hidle, fun ha => ?_⟩
  obtain ⟨hscr, hcount, _⟩ := hactive ha
  refine ⟨fun j hj => filled_getLsbD v (hscr j ?_) ?_, ?_, by simp [hunsealed]⟩
  · dsimp only at hj; omega
  · dsimp only at hj; omega
  · have := countUp_mod_eight w.count
    dsimp only
    omega

/-- The bit that completes a byte is accepted, and SCR and WCUR start a new one (R49, R50, R211). -/
theorem WriterUnit.Inv.byteCompleted {w : WriterUnit} (h : w.Inv) (hunsealed : w.sealed = false)
    (hc : w.wcur = 0#3) :
    WriterUnit.Inv { w with count := countUp w.count, scr := 0x00#8, wcur := 7#3 } := by
  obtain ⟨hidle, hactive⟩ := h
  refine ⟨hidle, fun ha => ?_⟩
  obtain ⟨_, hcount, _⟩ := hactive ha
  refine ⟨fun j _ => by simp, ?_, by simp [hunsealed]⟩
  have hzero : w.wcur.toNat = 0 := by rw [hc]; rfl
  have hup := countUp_mod_eight w.count
  have hseven : (7#3).toNat = 7 := rfl
  dsimp only
  omega

/-- A partial byte is sealed (R221). -/
theorem WriterUnit.Inv.partialSealed {w : WriterUnit} (h : w.Inv) (hc : w.wcur ≠ 7#3) :
    WriterUnit.Inv { w with sealed := true } := by
  obtain ⟨hidle, hactive⟩ := h
  refine ⟨hidle, fun ha => ?_⟩
  obtain ⟨hscr, hcount, _⟩ := hactive ha
  exact ⟨hscr, hcount, fun _ => hc⟩

theorem acceptBit_inv (v : Int) {s : State} (h : s.Inv) (ha : s.writer.wstate = .active) :
    (acceptBit v s).Inv := by
  have ⟨hr, hw, hsource, hsink⟩ := h
  rcases acceptBit_cases v s with ⟨_, ht⟩ | ⟨hs, hc, ht⟩ | ⟨hs, hc, ht⟩ <;> rw [ht]
  · exact complete_inv _ _ h
  · exact push_inv _ ⟨hr, hw.byteCompleted hs hc, hsource, hsink⟩ ha
  · exact complete_inv _ _ ⟨hr, hw.bitPlaced v hs hc, hsource, hsink⟩

theorem flushPartial_inv {s : State} (h : s.Inv) (ha : s.writer.wstate = .active) : (flushPartial s).Inv := by
  have ⟨hr, hw, hsource, hsink⟩ := h
  rcases flushPartial_cases s with ⟨_, ht⟩ | ⟨hc, ht⟩ <;> rw [ht]
  · exact complete_inv _ _ h
  · exact push_inv _ ⟨hr, hw.partialSealed hc, hsource, hsink⟩ ha

theorem readerRefusal_eq_none {r : ReaderUnit} : readerRefusal r = none ↔ r.rstate = .active := by
  cases h : r.rstate <;> simp [readerRefusal, h]

theorem writerRefusal_eq_none {w : WriterUnit} : writerRefusal w = none ↔ w.wstate = .active := by
  cases h : w.wstate <;> simp [writerRefusal, h]

theorem onReader_inv {run : State → State} {s : State} (h : s.Inv)
    (hrun : s.reader.rstate = .active → (run s).Inv) : (onReader run s).Inv := by
  rcases onReader_cases run s with ⟨r, _, ht⟩ | ⟨hnone, ht⟩ <;> rw [ht]
  · exact complete_inv _ _ h
  · exact hrun (readerRefusal_eq_none.mp hnone)

theorem onWriter_inv {run : State → State} {s : State} (h : s.Inv)
    (hrun : s.writer.wstate = .active → (run s).Inv) : (onWriter run s).Inv := by
  rcases onWriter_cases run s with ⟨r, _, ht⟩ | ⟨hnone, ht⟩ <;> rw [ht]
  · exact complete_inv _ _ h
  · exact hrun (writerRefusal_eq_none.mp hnone)

/-- Every command that a port accepts keeps the invariant. -/
theorem effect_inv (i : Instr) {s : State} (h : s.Inv) (hready : busy i.port s = false) : (effect i s).Inv := by
  cases i with
  | rNew n => exact newReader_inv n h (by simpa [Instr.port] using hready)
  | rRead => exact onReader_inv h (readBit_inv h)
  | wNew =>
    obtain ⟨hr, _, hsource, _⟩ := h
    exact complete_inv _ _ ⟨hr, WriterUnit.constructed_inv, hsource, fun hp => absurd rfl hp⟩
  | wWrite v => exact onWriter_inv h (acceptBit_inv v h)
  | wFlush => exact onWriter_inv h (flushPartial_inv h)
  | wCount => exact onWriter_inv h fun _ => complete_inv _ _ h

/-- A pull is outstanding only of an ACTIVE reader with its cursor at a byte's end (R75, R160). -/
theorem ReaderUnit.Inv.of_pending {r : ReaderUnit} (h : r.Inv) (hp : r.pending ≠ none) :
    r.rstate = .active ∧ r.rcur = 7#3 := by
  have ha : r.rstate = .active := Decidable.byContradiction fun hne => hp (h.1 hne)
  exact ⟨ha, (h.2 ha).1 hp⟩

theorem lookAheadAnswered_readFrame (a : PullAnswer) (s : State) : ReadFrame s (lookAheadAnswered a s) := by
  obtain ⟨hside, hinputs, _, hrstate, htrash, _, hla, hlav, _⟩ :=
    surface_frame { s with reader := s.reader.latch a }
  refine ⟨hside, hinputs, hrstate.trans (latch_rstate a _), htrash.trans (latch_trash a _), ?_⟩
  rw [lookAheadAnswered, hla, hlav]
  cases a <;> simp [ReaderUnit.latch]

/-- A late answer of the source leaves unchanged what R.READ does (R13, R75). -/
theorem answerPull_readFrame (a : PullAnswer) (s : State) : ReadFrame s (answerPull a s) := by
  unfold answerPull
  split
  · exact ⟨⟨rfl, rfl, rfl⟩, rfl, rfl, rfl, fun h => absurd rfl h⟩
  · exact firstPullAnswered_readFrame a { s with reader := { s.reader with pending := none } }
  · exact lookAheadAnswered_readFrame a { s with reader := { s.reader with pending := none } }

theorem answerPull_inv (a : PullAnswer) {s : State} (h : s.Inv) : (answerPull a s).Inv := by
  have hactive := ReaderUnit.Inv.of_pending h.1
  cases hp : s.reader.pending with
  | none => simpa [answerPull, hp] using h
  | some wait =>
    obtain ⟨ha, hc⟩ := hactive (by simp [hp])
    refine inv_of_readerPart h (answerPull_readFrame a s).1 ?_
    cases wait with
    | firstPull =>
      simp only [answerPull, hp]
      exact firstPullAnswered_readerPart a ha hc
    | lookAhead =>
      simp only [answerPull, hp]
      exact surface_readerPart fun _ _ => .inl ((latch_rcur a _).trans hc)

theorem answerPush_inv (a : PushAnswer) {s : State} (h : s.Inv) : (answerPush a s).Inv := by
  unfold answerPush
  split
  · exact h
  · exact pushAnswered_inv a h

/-- Settles O52: every outcome of a step keeps the invariant, which does not speak of the inputs. -/
theorem stepKeepsTheInvariant : Obligations.StepKeepsTheInvariant := by
  intro s t h hstep
  cases step_outcome hstep with
  | waits => exact h
  | runs i rest _ hready => exact effect_inv i (s := { s with inputs := rest }) h hready
  | illegal p rest => exact complete_inv p _ (s := { s with inputs := rest }) h
  | pullAnswer a rest => exact answerPull_inv a (s := { s with inputs := rest }) h
  | pushAnswer a rest => exact answerPush_inv a (s := { s with inputs := rest }) h
  | resets rest _ => exact powerOn_inv _

/-! ### RSTATE and TRASH -/

theorem effect_reader_frame {i : Instr} {s : State} (hi : i.port = .reader) (hready : busy i.port s = false) :
    SameWriterSide s (effect i s) :=
  (exec_reader_frame hi (exec_ready i hready)).1

theorem effect_writer_frame {i : Instr} {s : State} (hi : i.port = .writer) (hready : busy i.port s = false) :
    SameReaderSide s (effect i s) :=
  (exec_writer_frame hi (exec_ready i hready)).1

theorem answerPush_reader (a : PushAnswer) (s : State) : (answerPush a s).reader = s.reader := by
  unfold answerPush
  split
  · rfl
  · rw [pushAnswered_eq, complete_writer_reader]

/-- RSTATE and TRASH are written by R.NEW and by power-on reset only (R33, R34). -/
theorem step_rstate_trash {s t : State} (h : step s = .next t) :
    (t.reader.rstate = s.reader.rstate ∧ t.reader.trash = s.reader.trash) ∨
    (∃ n rest, TakesCommand (.rNew n) s ∧ t = newReader n { s with inputs := rest }) ∨ TakesReset s := by
  cases step_outcome h with
  | waits => exact .inl ⟨rfl, rfl⟩
  | runs i rest htakes hready =>
    cases i with
    | rNew n => exact .inr (.inl ⟨n, rest, htakes, rfl⟩)
    | rRead =>
      refine .inl ?_
      rcases onReader_cases readBit { s with inputs := rest } with ⟨_, _, ht⟩ | ⟨_, ht⟩
      · simp [effect, ht]
      · obtain ⟨_, _, hrstate, htrash, _⟩ := readBit_readFrame { s with inputs := rest }
        rw [effect, ht]
        exact ⟨hrstate, htrash⟩
    | wNew | wWrite _ | wFlush | wCount =>
      have hreader := (effect_writer_frame rfl hready).1
      exact .inl (by rw [hreader]; exact ⟨rfl, rfl⟩)
  | illegal p rest => cases p <;> exact .inl ⟨rfl, rfl⟩
  | pullAnswer a rest =>
    obtain ⟨_, _, hrstate, htrash, _⟩ := answerPull_readFrame a { s with inputs := rest }
    exact .inl ⟨hrstate, htrash⟩
  | pushAnswer a rest => exact .inl (by rw [answerPush_reader]; exact ⟨rfl, rfl⟩)
  | resets rest htakes => exact .inr (.inr htakes)

/-- Settles O32: of the commands only R.NEW writes RSTATE, and a FAULTED reader refuses it. -/
theorem faultedUntilPowerOnReset : Obligations.FaultedUntilPowerOnReset := by
  intro s t hf h
  rcases step_rstate_trash h with ⟨hrstate, _⟩ | ⟨n, rest, _, rfl⟩ | hreset
  · exact .inl (hrstate.trans hf)
  · rcases newReader_cases n { s with inputs := rest } with ⟨_, ht⟩ | ⟨hne, _⟩ | ⟨hne, _⟩
    · exact .inl (by rw [ht]; exact hf)
    · exact absurd hf hne
    · exact absurd hf hne
  · exact .inr hreset

/-- A legal trash count is 0 to 7 and stands in TRASH as it is (R113, R151). -/
theorem trashCount_eq_some {n : Int} {trash : BitVec 3} (h : trashCount n = some trash) :
    0 ≤ n ∧ n ≤ 7 ∧ trash = BitVec.ofInt 3 n := by
  unfold trashCount at h
  split_ifs at h with hn
  exact ⟨hn.1, hn.2, (Option.some.inj h).symm⟩

/-- Settles O33: of R.NEW's outcomes only the construction writes TRASH. -/
theorem trashWrittenOnlyByLegalRNew : Obligations.TrashWrittenOnlyByLegalRNew := by
  intro s t h hne
  rcases step_rstate_trash h with ⟨_, htrash⟩ | ⟨n, rest, htakes, rfl⟩ | hreset
  · exact absurd htrash hne
  · rcases newReader_cases n { s with inputs := rest } with ⟨_, ht⟩ | ⟨_, _, ht⟩ | ⟨_, trash, hcount, ht⟩
    · exact absurd (by rw [ht]; rfl) hne
    · exact absurd (by rw [ht]; rfl) hne
    · obtain ⟨hlow, hhigh, htrash⟩ := trashCount_eq_some hcount
      exact .inl ⟨n, hlow, hhigh, htakes, by rw [ht]; exact htrash⟩
  · exact .inr hreset

/-! ### SEALED and COUNT -/

theorem answerPull_writer (a : PullAnswer) (s : State) : (answerPull a s).writer = s.writer :=
  (answerPull_readFrame a s).1.1

theorem answerPush_writer (a : PushAnswer) (s : State) :
    (answerPush a s).writer = { s.writer with pending := none } := by
  unfold answerPush
  split
  · rename_i h; simp [← h]
  · rw [pushAnswered_eq, complete_writer_writer]

/-- W.WRITE past its lifecycle check counts its bit, unless the writer is sealed (R211, R212). -/
theorem acceptBit_count (v : Int) (s : State) :
    (acceptBit v s).writer.count = if s.writer.sealed then s.writer.count else countUp s.writer.count := by
  rcases acceptBit_cases v s with ⟨hs, ht⟩ | ⟨hs, _, ht⟩ | ⟨hs, _, ht⟩ <;> rw [ht]
  · simp [hs]
  · obtain ⟨wait, hw⟩ := push_writer (s.writer.filled v)
      { s with writer := { s.writer with count := countUp s.writer.count, scr := 0x00#8, wcur := 7#3 } }
    rw [hw]
    simp [hs]
  · simp [hs]

theorem flushPartial_keeps_seal {s : State} (h : s.writer.sealed = true) :
    (flushPartial s).writer.sealed = true := by
  rcases flushPartial_cases s with ⟨_, ht⟩ | ⟨_, ht⟩ <;> rw [ht]
  · exact h
  · obtain ⟨wait, hw⟩ := push_writer s.writer.scr { s with writer := { s.writer with sealed := true } }
    rw [hw]

/-- Apart from a W.WRITE past its lifecycle check, only W.NEW and power-on reset write COUNT or clear the seal
(R39, R42). -/
theorem step_count_sealed {s t : State} (h : step s = .next t) :
    (t.writer.count = s.writer.count ∧ (s.writer.sealed = true → t.writer.sealed = true)) ∨
    (∃ v rest, TakesCommand (.wWrite v) s ∧ s.writer.wstate = .active ∧
      t = acceptBit v { s with inputs := rest }) ∨
    (TakesCommand .wNew s ∧ t.writer = WriterUnit.constructed) ∨ TakesReset s := by
  cases step_outcome h with
  | waits => exact .inl ⟨rfl, id⟩
  | runs i rest htakes hready =>
    cases i with
    | rNew _ | rRead =>
      have hwriter := (effect_reader_frame rfl hready).1
      exact .inl (by rw [hwriter]; exact ⟨rfl, id⟩)
    | wNew => exact .inr (.inr (.inl ⟨htakes, rfl⟩))
    | wWrite v =>
      rcases onWriter_cases (acceptBit v) { s with inputs := rest } with ⟨_, _, ht⟩ | ⟨hnone, ht⟩
      · exact .inl (by rw [effect, ht]; exact ⟨rfl, id⟩)
      · exact .inr (.inl ⟨v, rest, htakes, writerRefusal_eq_none.mp hnone, ht⟩)
    | wFlush =>
      refine .inl ?_
      rcases onWriter_cases flushPartial { s with inputs := rest } with ⟨_, _, ht⟩ | ⟨_, ht⟩ <;> rw [effect, ht]
      · exact ⟨rfl, id⟩
      · obtain ⟨_, _, hcount, _⟩ := flushPartial_frame { s with inputs := rest }
        exact ⟨hcount, flushPartial_keeps_seal (s := { s with inputs := rest })⟩
    | wCount =>
      refine .inl ?_
      rcases onWriter_cases (fun s => complete .writer (.ok false s.writer.count) s) { s with inputs := rest }
        with ⟨_, _, ht⟩ | ⟨_, ht⟩ <;> rw [effect, ht] <;> exact ⟨rfl, id⟩
  | illegal p rest => cases p <;> exact .inl ⟨rfl, id⟩
  | pullAnswer a rest => exact .inl (by rw [answerPull_writer]; exact ⟨rfl, id⟩)
  | pushAnswer a rest => exact .inl (by rw [answerPush_writer]; exact ⟨rfl, id⟩)
  | resets rest htakes => exact .inr (.inr (.inr htakes))

/-- Settles O47: W.WRITE keeps the seal, as every step does but W.NEW and reset. -/
theorem sealClearedOnlyByWNewOrReset : Obligations.SealClearedOnlyByWNewOrReset := by
  intro s t hs h
  rcases step_count_sealed h with ⟨_, hkeep⟩ | ⟨v, rest, _, _, rfl⟩ | ⟨hnew, _⟩ | hreset
  · exact .inl (hkeep hs)
  · exact .inl ((acceptBit_frame v { s with inputs := rest }).1.trans hs)
  · exact .inr (.inl hnew)
  · exact .inr (.inr hreset)

/-- Settles O48: an unsealed W.WRITE adds 1 to COUNT, and a sealed one keeps it. -/
theorem countCountsAcceptedBits : Obligations.CountCountsAcceptedBits := by
  intro s t h
  rcases step_count_sealed h with ⟨hcount, _⟩ | ⟨v, rest, htakes, hactive, rfl⟩ | ⟨hnew, hwriter⟩ | hreset
  · exact .inl hcount
  · have hcount := acceptBit_count v { s with inputs := rest }
    cases hs : s.writer.sealed with
    | true => exact .inl (by simpa [hs] using hcount)
    | false => exact .inr (.inl ⟨⟨v, htakes⟩, hactive, rfl, by simpa [hs, countUp] using hcount⟩)
  · exact .inr (.inr (.inl ⟨hnew, by rw [hwriter]; rfl⟩))
  · exact .inr (.inr (.inr hreset))

/-- Settles O41: the accepted bit adds 1 modulo 2^64. -/
theorem countWrapsToZero : Obligations.CountWrapsToZero := by
  intro s t v hidle hactive hunsealed hmax h
  rw [execWWrite_active v hidle hactive, Host.Outcome.next.injEq] at h
  rw [← h, acceptBit_count, hunsealed]
  apply BitVec.eq_of_toNat_eq
  simp [countUp, hmax, Config.countWidth]

end Sys2Proof.Machine

/-! # Transactions: waiting for them, answering them late, and counting them -/

namespace Sys2Proof.Machine

/-! ### Every step has a next state -/

theorem runWord_next (p : Port) (w : Word) (s : State) : ∃ t, runWord p w s = .next t := by
  unfold runWord
  cases decode p w with
  | ok i => exact ⟨_, exec_eq_accept i s⟩
  | error _ => exact ⟨_, rfl⟩

theorem deliver_next (e : Input) (s : State) : ∃ t, deliver e s = .next t := by
  cases e with
  | command p w => exact runWord_next p w s
  | pullAnswer _ | pushAnswer _ | powerOnReset => exact ⟨_, rfl⟩

theorem step_next (s : State) : ∃ t, step s = .next t := by
  rcases step_cases s with ⟨_, h⟩ | ⟨e, rest, _, h⟩
  · exact ⟨s, h⟩
  · rw [h]
    exact deliver_next e _

/-- Settles O12: a command is an effect behind its handshake, and a step takes nothing or one input. -/
theorem everyStepHasANextState : Obligations.EveryStepHasANextState :=
  ⟨step_next, fun i s => ⟨_, exec_eq_accept i s⟩⟩

/-! ### A pull that waits, and its late answer -/

/-- What R.READ does with the answer to the pull that it waits for (R75, R160). -/
def PullWait.resume : PullWait → PullAnswer → State → State
  | .firstPull => firstPullAnswered
  | .lookAhead => lookAheadAnswered

/-- R.READ at a byte's end with a look-ahead byte: promote it and pull the next one (R160). -/
theorem execRRead_promote {s : State} (hidle : s.reader.pending = none) (hactive : s.reader.rstate = .active)
    (hcur : s.reader.rcur = 7#3) (hlav : s.reader.lav = true) :
    exec .rRead s =
      .next (pull .lookAhead PullWait.lookAhead.resume
        { s with reader := { s.reader with cur := s.reader.la } }) := by
  rw [execRRead_active hidle hactive, readBit_promote hcur hlav]
  rfl

/-- R.READ at a byte's end without a look-ahead byte: pull one (R160). -/
theorem execRRead_firstPull {s : State} (hidle : s.reader.pending = none) (hactive : s.reader.rstate = .active)
    (hcur : s.reader.rcur = 7#3) (hlav : s.reader.lav = false) :
    exec .rRead s = .next (pull .firstPull PullWait.firstPull.resume s) := by
  rw [execRRead_active hidle hactive, readBit_firstPull hcur hlav]
  rfl

/-- The first pull's byte is established, and the look-ahead pull issued (R160, R165). -/
theorem pull_firstPull_byte {s : State} {b : Byte} {rest : List PullAnswer}
    (hbyte : s.source.answers = .byte b :: rest) :
    pull .firstPull PullWait.firstPull.resume s =
      pull .lookAhead PullWait.lookAhead.resume
        { s with
          reader := { s.reader with cur := b }
          source := { answers := rest, pulls := s.source.pulls + 1 } } := by
  rw [pull_answered .firstPull _ hbyte]
  rfl

/-- Settles O22: a first pull waits as it was issued, and a look-ahead pull once CUR is established. -/
theorem rReadWaitsForTheSource : Obligations.RReadWaitsForTheSource := by
  intro s hidle hactive hcur
  refine ⟨fun hlav hnone => ?_, fun hlav hnone => ?_, fun b hlav hbyte => ?_⟩
  · rw [execRRead_firstPull hidle hactive hcur hlav, pull_unanswered _ _ hnone, ← hnone]
  · rw [execRRead_promote hidle hactive hcur hlav, pull_unanswered _ _ (by exact hnone), ← hnone]
  · rw [execRRead_firstPull hidle hactive hcur hlav, pull_firstPull_byte hbyte, pull_unanswered _ _ rfl]

/-- A pull that no answer stands ready for waits for it. -/
theorem pull_waits (wait : PullWait) (k : PullAnswer → State → State) {s : State} (hnone : s.source.answers = []) :
    (pull wait k s).reader.pending = some wait := by
  rw [pull_unanswered wait k hnone]

/-- A late answer to a pull makes what the same answer held ready would have made (R75, R269). -/
theorem step_late_pull (wait : PullWait) {a : PullAnswer} {more : List Input} {s : State}
    (hidle : s.reader.pending = none) (hnone : s.source.answers = []) (hinputs : s.inputs = .pullAnswer a :: more) :
    step (pull wait wait.resume s) =
      .next (pull wait wait.resume { s with source := { s.source with answers := [a] }, inputs := more }) := by
  obtain ⟨⟨_, _, _, _, _, _, pending⟩, _, ⟨answers, _⟩, _, _, _, inputs⟩ := s
  obtain rfl : pending = none := hidle
  obtain rfl : answers = [] := hnone
  obtain rfl : inputs = .pullAnswer a :: more := hinputs
  cases wait <;> rfl

/-- The step that takes a late answer to R.READ's pull makes what R.READ makes with that answer held ready. -/
theorem rRead_late {s : State} {a : PullAnswer} {more : List Input} (hidle : s.reader.pending = none)
    (hactive : s.reader.rstate = .active) (hcur : s.reader.rcur = 7#3) (hnone : s.source.answers = [])
    (hinputs : s.inputs = .pullAnswer a :: more) :
    ∃ t, exec .rRead s = .next t ∧
      t.reader.pending = some (if s.reader.lav then .lookAhead else .firstPull) ∧
      step t = exec .rRead { s with source := { s.source with answers := [a] }, inputs := more } := by
  cases hlav : s.reader.lav with
  | true =>
    refine ⟨_, execRRead_promote hidle hactive hcur hlav, pull_waits .lookAhead _ hnone, ?_⟩
    rw [step_late_pull .lookAhead (by exact hidle) (by exact hnone) (by exact hinputs)]
    exact Eq.symm (execRRead_promote hidle hactive hcur hlav)
  | false =>
    refine ⟨_, execRRead_firstPull hidle hactive hcur hlav, pull_waits .firstPull _ hnone, ?_⟩
    rw [step_late_pull .firstPull hidle hnone hinputs]
    exact Eq.symm (execRRead_firstPull hidle hactive hcur hlav)

/-- The same for both pulls of a load, each answered late. -/
theorem rRead_late_twice {s : State} {b : Byte} {a : PullAnswer} {more : List Input}
    (hidle : s.reader.pending = none) (hactive : s.reader.rstate = .active) (hcur : s.reader.rcur = 7#3)
    (hlav : s.reader.lav = false) (hnone : s.source.answers = [])
    (hinputs : s.inputs = .pullAnswer (.byte b) :: .pullAnswer a :: more) :
    ∃ t u, exec .rRead s = .next t ∧ t.reader.pending = some .firstPull ∧
      step t = .next u ∧ u.reader.pending = some .lookAhead ∧
      step u = exec .rRead { s with source := { s.source with answers := [.byte b, a] }, inputs := more } := by
  refine ⟨_, _, execRRead_firstPull hidle hactive hcur hlav, pull_waits .firstPull _ hnone,
    step_late_pull .firstPull hidle hnone hinputs, ?_⟩
  rw [pull_firstPull_byte rfl]
  refine ⟨pull_waits .lookAhead _ rfl, ?_⟩
  rw [step_late_pull .lookAhead (by exact hidle) rfl rfl, execRRead_firstPull (by exact hidle) (by exact hactive)
    (by exact hcur) (by exact hlav), pull_firstPull_byte rfl]

/-! ### What a writer command does is fixed by the writer's registers -/

/-- From the registers w the command completes without a push: with a fixed response and fixed registers. -/
def CompletesFrom (i : Instr) (w : WriterUnit) : Prop :=
  ∃ r w', ∀ s : State, s.writer = w →
    pushCount i s = 0 ∧ effect i s = complete .writer r { s with writer := w' }

/-- From the registers w the command makes one push: of a fixed byte, with fixed registers written before it. -/
def PushesFrom (i : Instr) (w : WriterUnit) : Prop :=
  ∃ b w', ∀ s : State, s.writer = w → pushCount i s = 1 ∧ effect i s = push b { s with writer := w' }

theorem onWriter_active (run : State → State) {s : State} (h : s.writer.wstate = .active) :
    onWriter run s = run s := by
  simp [onWriter, writerRefusal_active h]

/-- A command that the lifecycle check refuses pushes nothing (R202). -/
theorem completesFrom_unconstructed {i : Instr} {run : State → State} {w : WriterUnit}
    (hrun : effect i = onWriter run) (hw : w.wstate = .unconstructed)
    (hcount : ∀ s : State, s.writer = w → pushCount i s = 0) : CompletesFrom i w := by
  refine ⟨.noInstance, w, fun s hs => ⟨hcount s hs, ?_⟩⟩
  subst hs
  simp [hrun, onWriter, writerRefusal, hw]

theorem wWrite_completes_or_pushes (v : Int) (w : WriterUnit) :
    CompletesFrom (.wWrite v) w ∨ PushesFrom (.wWrite v) w := by
  cases hw : w.wstate with
  | unconstructed => exact .inl (completesFrom_unconstructed rfl hw (by rintro s rfl; simp [pushCount, hw]))
  | active =>
    have heffect : ∀ s : State, s.writer = w → effect (.wWrite v) s = acceptBit v s := by
      rintro s rfl
      exact onWriter_active _ hw
    cases hs : w.sealed with
    | true =>
      refine .inl ⟨.misuse, w, ?_⟩
      rintro s rfl
      simp [pushCount, heffect, acceptBit, hs]
    | false =>
      by_cases hc : w.wcur = 0#3
      · refine .inr ⟨w.filled v, { w with count := countUp w.count, scr := 0x00#8, wcur := 7#3 }, ?_⟩
        rintro s rfl
        simp [pushCount, heffect, acceptBit, hw, hs, WriterUnit.lastBit, hc]
      · refine .inl ⟨.done,
          { w with count := countUp w.count, scr := w.filled v, wcur := cursorDown w.wcur }, ?_⟩
        rintro s rfl
        simp [pushCount, heffect, acceptBit, hs, WriterUnit.lastBit, hc]

theorem wFlush_completes_or_pushes (w : WriterUnit) : CompletesFrom .wFlush w ∨ PushesFrom .wFlush w := by
  cases hw : w.wstate with
  | unconstructed => exact .inl (completesFrom_unconstructed rfl hw (by rintro s rfl; simp [pushCount, hw]))
  | active =>
    have heffect : ∀ s : State, s.writer = w → effect .wFlush s = flushPartial s := by
      rintro s rfl
      exact onWriter_active _ hw
    by_cases hc : w.wcur = 7#3
    · refine .inl ⟨.done, w, ?_⟩
      rintro s rfl
      simp [pushCount, heffect, flushPartial, WriterUnit.atBoundary, hc]
    · refine .inr ⟨w.scr, { w with sealed := true }, ?_⟩
      rintro s rfl
      simp [pushCount, heffect, flushPartial, WriterUnit.atBoundary, hw, hc]

theorem wCount_completes (w : WriterUnit) : CompletesFrom .wCount w := by
  cases hw : w.wstate with
  | unconstructed => exact completesFrom_unconstructed rfl hw fun _ _ => rfl
  | active =>
    refine ⟨.ok false w.count, w, ?_⟩
    rintro s rfl
    exact ⟨rfl, onWriter_active _ hw⟩

/-- A writer command completes without a push or makes one push: the table of R73. -/
theorem writer_completes_or_pushes {i : Instr} (hi : i.port = .writer) (w : WriterUnit) :
    CompletesFrom i w ∨ PushesFrom i w := by
  cases i with
  | rNew _ | rRead => cases hi
  | wNew => exact .inl ⟨.done, WriterUnit.constructed, fun s _ => ⟨rfl, rfl⟩⟩
  | wWrite v => exact wWrite_completes_or_pushes v w
  | wFlush => exact wFlush_completes_or_pushes w
  | wCount => exact .inl (wCount_completes w)

/-! ### A push's late answer -/

/-- A late answer to a push makes what the same answer held ready would have made (R75, R269). -/
theorem step_late_push (b : Byte) {a : PushAnswer} {more : List Input} {s : State}
    (hnone : s.sink.answers = []) (hinputs : s.inputs = .pushAnswer a :: more) :
    step (push b s) = .next (push b { s with sink := { s.sink with answers := [a] }, inputs := more }) := by
  obtain ⟨_, _, _, ⟨answers, _⟩, _, _, inputs⟩ := s
  obtain rfl : answers = [] := hnone
  obtain rfl : inputs = .pushAnswer a :: more := hinputs
  cases a <;> rfl

/-- The step that takes a late answer to a command's push makes what the command makes with it held ready. -/
theorem writer_late {i : Instr} {a : PushAnswer} {more : List Input} {s t : State} (hi : i.port = .writer)
    (hidle : s.writer.pending = none) (hnone : s.sink.answers = []) (hinputs : s.inputs = .pushAnswer a :: more)
    (h : exec i s = .next t) (hwaits : t.writer.pending ≠ none) :
    step t = exec i { s with sink := { s.sink with answers := [a] }, inputs := more } := by
  have hready : ∀ u : State, u.writer = s.writer → busy i.port u = false := by
    rintro u hu
    rw [hi, busy_writer_eq, hu, hidle]
    rfl
  rw [exec_ready i (hready s rfl)] at h
  rw [exec_ready i (hready _ (by exact rfl))]
  obtain rfl := Host.Outcome.next.inj h
  rcases writer_completes_or_pushes hi s.writer with ⟨r, w', heffect⟩ | ⟨b, w', heffect⟩
  · rw [(heffect s rfl).2] at hwaits
    exact absurd rfl hwaits
  · rw [(heffect s rfl).2, (heffect _ (by exact rfl)).2]
    exact step_late_push b hnone hinputs

/-- Settles O26: each late answer makes what it would have made held ready, so the last one ends the command the
same. -/
theorem lateAnswersGiveTheSameOutcome : Obligations.LateAnswersGiveTheSameOutcome := by
  intro s more
  refine ⟨fun a hidle hactive hcur hlav hnone hinputs => ?_, fun b a => rRead_late_twice,
    fun a _ hidle hactive hcur hlav hnone hinputs => ?_, fun i a t => writer_late⟩
  · simpa [hlav] using rRead_late hidle hactive hcur hnone hinputs
  · simpa [hlav] using rRead_late hidle hactive hcur hnone hinputs

end Sys2Proof.Machine

namespace Sys2Proof

/-! ### A word that decodes is legal -/

/-- A word is its fields (R111). -/
theorem word_eq_fields (w : Word) : w = opOf w ++ rsvOf w ++ argOf w := by
  have hhigh : opOf w ++ rsvOf w = w.extractLsb' 8 8 := BitVec.extractLsb'_append_extractLsb'_eq_extractLsb' rfl
  have hall : w.extractLsb' 8 8 ++ argOf w = w.extractLsb' 0 16 :=
    BitVec.extractLsb'_append_extractLsb'_eq_extractLsb' rfl
  rw [hhigh, hall, BitVec.extractLsb'_eq_self]

/-- The words of the opcode map's rows are legal (R112). -/
theorem legalOn_fields :
    (∀ arg : BitVec 8, legalOn .reader (0b0001#4 ++ 0b0000#4 ++ arg) = true) ∧
    legalOn .reader (0b0010#4 ++ 0b0000#4 ++ 0x00#8) = true ∧
    legalOn .writer (0b1000#4 ++ 0b0000#4 ++ 0x00#8) = true ∧
    (∀ arg : BitVec 8, legalOn .writer (0b1001#4 ++ 0b0000#4 ++ arg) = true) ∧
    legalOn .writer (0b1010#4 ++ 0b0000#4 ++ 0x00#8) = true ∧
    legalOn .writer (0b1011#4 ++ 0b0000#4 ++ 0x00#8) = true := by
  decide

theorem argOf_of_withoutOperand {w : Word} {i j : Instr} (h : withoutOperand w i = .ok j) :
    argOf w = 0x00#8 := by
  unfold withoutOperand at h
  split_ifs at h with harg
  exact harg

/-- A port decodes only legal words (R112, R116). -/
theorem legalOn_of_decode {p : Port} {w : Word} {i : Instr} (h : decode p w = .ok i) : legalOn p w = true := by
  obtain ⟨hNew, hRead, hWNew, hWrite, hFlush, hCount⟩ := legalOn_fields
  unfold decode at h
  split_ifs at h with hrsv
  rw [word_eq_fields w, not_not.mp hrsv]
  cases p with
  | reader =>
    simp only [decodeReader] at h
    split_ifs at h with hop hop
    · rw [hop]; exact hNew _
    · rw [hop, argOf_of_withoutOperand h]; exact hRead
  | writer =>
    simp only [decodeWriter] at h
    split_ifs at h with hop hop hop hop
    · rw [hop, argOf_of_withoutOperand h]; exact hWNew
    · rw [hop]; exact hWrite _
    · rw [hop, argOf_of_withoutOperand h]; exact hFlush
    · rw [hop, argOf_of_withoutOperand h]; exact hCount

end Sys2Proof

namespace Sys2Proof.Machine

/-! ### How many transactions a command makes -/

/-- Establishing CUR issues the look-ahead pull (R165). -/
theorem establish_pulls (b : Byte) (s : State) : (establish b s).source.pulls = s.source.pulls + 1 := by
  rcases establish_cases b s with ⟨a, rest, _, h⟩ | ⟨_, h⟩ <;> rw [h]
  rw [(surface_frame _).2.2.1]

/-- R.READ past its lifecycle check makes the pulls of R168's table. -/
theorem readBit_pulls {s : State} (hactive : s.reader.rstate = .active) :
    (readBit s).source.pulls = s.source.pulls + readPulls s := by
  rcases readBit_cases s with ⟨hc, h⟩ | ⟨hc, hl, h⟩ | ⟨hc, hl, hnone, h⟩ | ⟨hc, hl, a, rest, hsome, h⟩ <;> rw [h]
  · rw [(surface_frame s).2.2.1]
    simp [readPulls, hactive, hc]
  · rw [establish_pulls]
    simp [readPulls, hactive, hc, hl]
  · simp [readPulls, hactive, hc, hl, hnone]
  · cases a with
    | byte b =>
      rw [firstPullAnswered, establish_pulls]
      simp [readPulls, hactive, hc, hl, hsome]
    | exhausted | failed e => simp [firstPullAnswered, readPulls, hactive, hc, hl, hsome]

/-- An R.READ that the lifecycle check refuses makes no pull (R152). -/
theorem readPulls_refused {s : State} {r : Response} (h : readerRefusal s.reader = some r) : readPulls s = 0 := by
  have hinactive : s.reader.rstate ≠ .active := fun ha => by simp [readerRefusal_active ha] at h
  simp [readPulls, hinactive]

theorem effect_rRead_pulls (s : State) : (effect .rRead s).source.pulls = s.source.pulls + readPulls s := by
  rw [effect]
  rcases onReader_cases readBit s with ⟨r, hr, h⟩ | ⟨hnone, h⟩ <;> rw [h]
  · rw [readPulls_refused hr, complete_reader_source, Nat.add_zero]
  · exact readBit_pulls (readerRefusal_eq_none.mp hnone)

/-- R.NEW makes no pull (R151). -/
theorem newReader_source (n : Int) (s : State) : (newReader n s).source = s.source := by
  rcases newReader_cases n s with ⟨_, h⟩ | ⟨_, _, h⟩ | ⟨_, _, _, h⟩ <;> rw [h] <;> rfl

theorem push_pushed (b : Byte) (s : State) : (push b s).sink.pushed = s.sink.pushed ++ [b] := by
  rcases push_cases b s with ⟨_, _, _, _, h⟩ | ⟨_, h⟩ <;> rw [h]
  rfl

/-- A writer command makes the pushes of R73's table. -/
theorem effect_writer_pushed {i : Instr} (hi : i.port = .writer) (s : State) :
    ∃ bytes, (effect i s).sink.pushed = s.sink.pushed ++ bytes ∧ bytes.length = pushCount i s := by
  rcases writer_completes_or_pushes hi s.writer with ⟨r, w', h⟩ | ⟨b, w', h⟩
  · obtain ⟨hcount, heffect⟩ := h s rfl
    exact ⟨[], by rw [heffect, complete_writer_sink, List.append_nil], hcount.symm⟩
  · obtain ⟨hcount, heffect⟩ := h s rfl
    exact ⟨[b], by rw [heffect, push_pushed], hcount.symm⟩

/-- An illegal word makes no transaction (R73, R116). -/
theorem runWord_illegal_ports {p : Port} {w : Word} {s t : State} (hillegal : legalOn p w = false)
    (h : runWord p w s = .next t) : t.source = s.source ∧ t.sink = s.sink := by
  unfold runWord at h
  cases hd : decode p w with
  | ok i => simp [legalOn_of_decode hd] at hillegal
  | error _ =>
    rw [hd] at h
    obtain rfl := Host.Outcome.next.inj h
    rcases accept_cases p s (complete p .illegalCommand) with ⟨_, ha⟩ | ⟨_, ha⟩ <;> rw [ha]
    · exact ⟨rfl, rfl⟩
    · cases p <;> exact ⟨rfl, rfl⟩

/-- Settles O56: a reader command leaves the sink and a writer command the source, and each counts its own. -/
theorem transactionsOfEveryCommand : Obligations.TransactionsOfEveryCommand := by
  refine ⟨fun i s t hready h => ?_, fun _ _ _ _ => runWord_illegal_ports⟩
  obtain rfl := Host.Outcome.next.inj ((exec_ready i hready).symm.trans h)
  cases i with
  | rNew n =>
    have hsink := (effect_reader_frame rfl hready).2.1
    exact ⟨congrArg SourcePort.pulls (newReader_source n s), [], by simp [hsink], rfl⟩
  | rRead =>
    have hsink := (effect_reader_frame rfl hready).2.1
    exact ⟨effect_rRead_pulls s, [], by simp [hsink], rfl⟩
  | wNew | wWrite _ | wFlush | wCount =>
    have hsource := (effect_writer_frame rfl hready).2.1
    exact ⟨by simp [hsource], effect_writer_pushed rfl s⟩

/-! ### A transaction that is never answered -/

/-- The two states agree on the unit of the port and on its ports. -/
def SameSide : Port → State → State → Prop
  | .reader => SameReaderSide
  | .writer => SameWriterSide

theorem SameSide.refl (p : Port) (s : State) : SameSide p s s := by
  cases p <;> exact ⟨rfl, rfl, rfl⟩

theorem SameSide.trans {p : Port} {s t u : State} (h : SameSide p s t) (h' : SameSide p t u) : SameSide p s u := by
  cases p <;> exact ⟨h'.1.trans h.1, h'.2.1.trans h.2.1, h'.2.2.trans h.2.2⟩

theorem SameSide.busy_eq {p : Port} {s t : State} (h : SameSide p s t) : busy p t = busy p s := by
  cases p <;> simp [h.1]

/-- The input ends a wait of the port's unit: its transaction's answer, or a power-on reset (R75, R293). -/
def Input.endsWait : Port → Input → Prop
  | _, .command _ _ => False
  | p, .pullAnswer _ => p = .reader
  | p, .pushAnswer _ => p = .writer
  | _, .powerOnReset => True

/-- The port of the other unit. -/
def otherPort : Port → Port
  | .reader => .writer
  | .writer => .reader

theorem otherPort_eq_of_ne {p q : Port} (h : q ≠ p) : otherPort q = p := by
  match p, q, h with
  | .reader, .reader, h | .writer, .writer, h => exact absurd rfl h
  | .reader, .writer, _ | .writer, .reader, _ => rfl

/-- A word on one port keeps the other unit's side and the inputs (R2, R85). -/
theorem runWord_keeps {q : Port} {w : Word} {s t : State} (h : runWord q w s = .next t) :
    SameSide (otherPort q) s t ∧ t.inputs = s.inputs := by
  unfold runWord at h
  cases hd : decode q w with
  | ok i =>
    rw [hd] at h
    have hi := port_of_decode hd
    cases q with
    | reader => exact exec_reader_frame hi h
    | writer => exact exec_writer_frame hi h
  | error _ =>
    rw [hd] at h
    obtain rfl := Host.Outcome.next.inj h
    rcases accept_cases q s (complete q .illegalCommand) with ⟨_, ha⟩ | ⟨_, ha⟩ <;> rw [ha]
    · exact ⟨.refl _ s, rfl⟩
    · cases q <;> exact ⟨⟨rfl, rfl, rfl⟩, rfl⟩

theorem answerPush_keeps (a : PushAnswer) (s : State) :
    SameReaderSide s (answerPush a s) ∧ (answerPush a s).inputs = s.inputs := by
  unfold answerPush
  split
  · exact ⟨⟨rfl, rfl, rfl⟩, rfl⟩
  · rw [pushAnswered_eq]
    exact ⟨⟨rfl, rfl, rfl⟩, rfl⟩

/-- An input that a busy port lets pass, and that does not end its wait, keeps its side and the inputs. -/
theorem deliver_keeps_busy {p : Port} {e : Input} {s t : State} (hbusy : busy p s = true)
    (hwait : ¬ e.endsWait p) (htakes : takes s e = true) (h : deliver e s = .next t) :
    SameSide p s t ∧ t.inputs = s.inputs := by
  cases e with
  | command q w =>
    have hqp : q ≠ p := by
      rintro rfl
      simp [takes, hbusy] at htakes
    exact otherPort_eq_of_ne hqp ▸ runWord_keeps h
  | pullAnswer a =>
    obtain rfl := Host.Outcome.next.inj h
    obtain ⟨hside, hinputs, _⟩ := answerPull_readFrame a s
    cases p with
    | reader => exact absurd rfl hwait
    | writer => exact ⟨hside, hinputs⟩
  | pushAnswer a =>
    obtain rfl := Host.Outcome.next.inj h
    cases p with
    | reader => exact answerPush_keeps a s
    | writer => exact absurd rfl hwait
  | powerOnReset => exact absurd trivial hwait

theorem takes_inputs (s : State) (rest : List Input) (e : Input) :
    takes { s with inputs := rest } e = takes s e := by
  cases e with
  | command p w => exact congrArg (!·) (busy_inputs p s rest)
  | pullAnswer _ | pushAnswer _ | powerOnReset => rfl

/-- A step of a core with a hung unit keeps that unit's side, and brings no input that would end the wait. -/
theorem step_hung {p : Port} {s t : State} (hbusy : busy p s = true) (hwait : ∀ e ∈ s.inputs, ¬ e.endsWait p)
    (h : step s = .next t) : SameSide p s t ∧ ∀ e ∈ t.inputs, ¬ e.endsWait p := by
  rcases step_cases s with ⟨_, hs⟩ | ⟨e, rest, hnext, hs⟩
  · obtain rfl := Host.Outcome.next.inj (hs.symm.trans h)
    exact ⟨.refl p s, hwait⟩
  · obtain ⟨htakes, held, later, hinputs, rfl, _⟩ := nextInput_spec hnext
    rw [hinputs] at hwait
    obtain ⟨hside, hrest⟩ := deliver_keeps_busy (s := { s with inputs := held ++ later })
      ((busy_inputs p s _).trans hbusy) (hwait e (by simp)) ((takes_inputs s _ e).trans htakes) (hs.symm.trans h)
    refine ⟨?_, fun x hx => hwait x ?_⟩
    · cases p <;> exact hside
    · rw [hrest] at hx
      simp only [List.mem_append, List.mem_cons] at hx ⊢
      exact hx.imp_right .inr

/-- A hung unit's side stays over any number of steps (R75). -/
theorem run_hung {p : Port} (n : Nat) {s t : State} (hbusy : busy p s = true)
    (hwait : ∀ e ∈ s.inputs, ¬ e.endsWait p) (h : Host.Core.run Sys2Proof.core n s = .next t) :
    SameSide p s t := by
  induction n generalizing s with
  | zero =>
    obtain rfl := Host.Outcome.next.inj h
    exact .refl p s
  | succ n ih =>
    obtain ⟨u, hu⟩ := step_next s
    obtain ⟨hside, hwait'⟩ := step_hung hbusy hwait hu
    have hrun : Host.Core.run Sys2Proof.core (n + 1) s = Host.Core.run Sys2Proof.core n u := by
      have hcore : Host.Core.step Sys2Proof.core s = .next u := hu
      simp only [Host.Core.run, hcore]
    exact hside.trans (ih (hside.busy_eq.trans hbusy) hwait' (hrun.symm.trans h))

/-- Settles O57: no step reaches a hung unit, and a caller's wait for it takes no input. -/
theorem unansweredTransactionHangsItsUnit : Obligations.UnansweredTransactionHangsItsUnit := by
  refine ⟨fun n s t hbusy hinputs => run_hung (p := .reader) n hbusy fun e he => ?_,
    fun n s t hbusy hinputs => run_hung (p := .writer) n hbusy fun e he => ?_,
    fun i rest s t => runAll_blocked rest⟩
  · obtain ⟨hanswer, hreset⟩ := hinputs e he
    cases e with
    | command _ _ => exact id
    | pullAnswer a => exact absurd rfl (hanswer a)
    | pushAnswer _ => exact nofun
    | powerOnReset => exact absurd rfl hreset
  · obtain ⟨hanswer, hreset⟩ := hinputs e he
    cases e with
    | command _ _ => exact id
    | pullAnswer _ => exact nofun
    | pushAnswer a => exact absurd rfl (hanswer a)
    | powerOnReset => exact absurd rfl hreset

end Sys2Proof.Machine

namespace Sys2Proof.Machine

/-! ### The pulls of a stream's loads (R80)

A reader that has loaded a byte issues a further pull for each byte that it loads after that: the look-ahead pull
for the byte after it, which the last one finds exhausted. -/

/-- An idle ACTIVE reader with a byte loaded: `here` more R.READs stay within that byte, whether or not they
surface a bit (R161), and after them come the loads of `bytes`, the first of which is looked ahead. -/
structure Decomposing (bytes : List Byte) (here : Nat) (s : State) : Prop where
  idle : s.reader.pending = none
  active : s.reader.rstate = .active
  left : here ≤ (s.reader.rcur + 1).toNat
  ahead : bytes ≠ [] → s.reader.lav = true ∧ (s.reader.rcur + 1).toNat = here ∧
    ∃ rest, s.source.answers = bytes.tail.map .byte ++ .exhausted :: rest

theorem Decomposing.ready {bytes : List Byte} {here : Nat} {s : State} (h : Decomposing bytes here s) :
    busy .reader s = false :=
  congrArg Option.isSome h.idle

/-- A load makes one pull once its byte is established, and leaves seven reads within the byte (R165). -/
theorem establish_decomposing (b : Byte) {bytes : List Byte} {rest : List PullAnswer} {s : State}
    (hactive : s.reader.rstate = .active) (hcur : s.reader.rcur = 7#3)
    (hsource : s.source.answers = bytes.map .byte ++ .exhausted :: rest) :
    (establish b s).source.pulls = s.source.pulls + 1 ∧ Decomposing bytes 7 (establish b s) := by
  refine ⟨establish_pulls b s, ?_⟩
  rcases establish_cases b s with ⟨a, later, ha, h⟩ | ⟨hnone, _⟩
  · rw [h, surface_load (by simpa using hcur)]
    refine ⟨rfl, by simpa using hactive, Nat.le_refl 7, fun hmore => ?_⟩
    obtain ⟨c, bytes, rfl⟩ := List.exists_cons_of_ne_nil hmore
    obtain ⟨rfl, hlater⟩ := List.cons.inj (ha.symm.trans hsource)
    exact ⟨rfl, rfl, rest, hlater⟩
  · simp [hnone] at hsource

/-- An R.READ within a byte makes no pull (R161, R162). -/
theorem readBit_decomposing_within {bytes : List Byte} {here : Nat} {s : State}
    (h : Decomposing bytes (here + 1) s) :
    (readBit s).source.pulls = s.source.pulls ∧ Decomposing bytes here (readBit s) := by
  obtain ⟨hidle, hactive, hleft, hahead⟩ := h
  have hcur : s.reader.rcur ≠ 7#3 := fun hc => by simp [hc] at hleft
  have hdown : (cursorDown s.reader.rcur + 1).toNat + 1 = (s.reader.rcur + 1).toNat := by
    rw [toNat_add_one_of_ne_seven hcur, cursorDown, BitVec.sub_add_cancel]
  rw [readBit_within hcur]
  rcases surface_cases s with ⟨hend, ht⟩ | ⟨_, ht⟩ <;> rw [ht]
  · refine ⟨rfl, rfl, hactive, Nat.le_of_succ_le hleft, fun hmore => ?_⟩
    simp [ReaderUnit.endOfData, (hahead hmore).1] at hend
  · refine ⟨rfl, rfl, hactive, Nat.le_of_succ_le_succ (hleft.trans_eq hdown.symm), fun hmore => ?_⟩
    obtain ⟨hlav, heq, hrest⟩ := hahead hmore
    exact ⟨hlav, Nat.succ.inj (hdown.trans heq), hrest⟩

/-- An R.READ at a byte's end loads the byte looked ahead, with one pull (R160). -/
theorem readBit_decomposing_load {b : Byte} {bytes : List Byte} {s : State} (h : Decomposing (b :: bytes) 0 s) :
    (readBit s).source.pulls = s.source.pulls + 1 ∧ Decomposing bytes 7 (readBit s) := by
  obtain ⟨hlav, hzero, rest, hsource⟩ := h.ahead (by simp)
  have hcur : s.reader.rcur = 7#3 := Decidable.byContradiction fun hc => by
    have := toNat_add_one_of_ne_seven hc
    omega
  rw [readBit_promote hcur hlav]
  exact establish_decomposing _ h.active hcur hsource

/-- After the loaded byte, every eighth R.READ makes one pull. -/
theorem runAll_reads_decomposing (n : Nat) {bytes : List Byte} {here : Nat} {s : State}
    (h : Decomposing bytes here s) (hn : n ≤ here + 8 * bytes.length) :
    ∃ t, runAll (List.replicate n .rRead) s = .next t ∧
      t.source.pulls = s.source.pulls + (n - here + 7) / 8 := by
  induction n generalizing bytes here s with
  | zero => exact ⟨s, rfl, by omega⟩
  | succ n ih =>
    have hread : ∀ {more : List Byte} {next : Nat}, Decomposing more next (readBit s) →
        runAll (List.replicate (n + 1) .rRead) s = runAll (List.replicate n .rRead) (readBit s) :=
      fun hnext => runAll_cons (i := .rRead) _ h.ready (execRRead_active h.idle h.active) hnext.ready
    cases here with
    | succ here =>
      obtain ⟨hpulls, hnext⟩ := readBit_decomposing_within h
      obtain ⟨t, hrun, ht⟩ := ih hnext (by omega)
      exact ⟨t, (hread hnext).trans hrun, by omega⟩
    | zero =>
      cases bytes with
      | nil => simp at hn
      | cons b bytes =>
        obtain ⟨hpulls, hnext⟩ := readBit_decomposing_load h
        rw [List.length_cons] at hn
        obtain ⟨t, hrun, ht⟩ := ih hnext (by omega)
        exact ⟨t, (hread hnext).trans hrun, by omega⟩

/-- A count of 0 to 7 is legal (R151). -/
theorem trashCount_natCast {τ : Nat} (hτ : τ ≤ 7) : trashCount τ = some (BitVec.ofNat 3 τ) := by
  simp [trashCount, Config.trashMax, hτ]

/-- A legal R.NEW constructs the reader (R151). -/
theorem exec_rNew_constructs {τ : Nat} {s : State} (hτ : τ ≤ 7) (hidle : s.reader.pending = none)
    (hnew : s.reader.rstate ≠ .faulted) :
    exec (.rNew τ) s =
      .next (complete .reader .done { s with reader := ReaderUnit.constructed (BitVec.ofNat 3 τ) }) := by
  have hcount := trashCount_natCast hτ
  rw [execRNew_ready τ hidle]
  rcases newReader_cases τ s with ⟨hf, _⟩ | ⟨_, hnone, _⟩ | ⟨_, trash, hsome, h⟩
  · exact absurd hf hnew
  · simp [hcount] at hnone
  · rw [h, Option.some.inj (hcount.symm.trans hsome)]

/-- The first load of a stream makes two pulls: its byte and the look-ahead (R160). -/
theorem readBit_first_load {b : Byte} {bytes : List Byte} {rest : List PullAnswer} {s : State}
    (hactive : s.reader.rstate = .active) (hcur : s.reader.rcur = 7#3) (hlav : s.reader.lav = false)
    (hsource : s.source.answers = .byte b :: (bytes.map .byte ++ .exhausted :: rest)) :
    (readBit s).source.pulls = s.source.pulls + 2 ∧ Decomposing bytes 7 (readBit s) := by
  rw [readBit_firstPull hcur hlav, pull_answered _ _ hsource]
  exact establish_decomposing b hactive hcur rfl

/-- Settles O30: R.NEW makes no pull, the first load two, and each of the j - 1 loads after it one. -/
theorem lookAheadPullCount : Obligations.LookAheadPullCount := by
  intro τ j k bytes rest s hτ hj hbytes hlow hhigh hidle hnew hsource
  obtain ⟨b, bytes, rfl⟩ : ∃ b later, bytes = b :: later := List.exists_cons_of_length_pos (by omega)
  obtain ⟨n, rfl⟩ : ∃ n, k = n + 1 := ⟨k - 1, by omega⟩
  rw [List.length_cons] at hbytes ⊢
  set u := complete .reader .done { s with reader := ReaderUnit.constructed (BitVec.ofNat 3 τ) }
  have hexec : exec (.rNew τ) s = .next u := exec_rNew_constructs hτ hidle hnew
  obtain ⟨hpulls, hloaded⟩ := readBit_first_load (s := u) rfl rfl rfl hsource
  obtain ⟨t, hrun, ht⟩ := runAll_reads_decomposing n hloaded (by omega)
  have hpulled : u.source.pulls = s.source.pulls := rfl
  refine ⟨t, ?_, by omega⟩
  calc runAll (.rNew τ :: List.replicate (n + 1) .rRead) s
      = runAll (List.replicate (n + 1) .rRead) u :=
        runAll_cons (i := .rNew τ) _ (congrArg Option.isSome hidle) hexec rfl
    _ = runAll (List.replicate n .rRead) (readBit u) :=
        runAll_cons (i := .rRead) _ rfl (execRRead_active rfl rfl) hloaded.ready
    _ = .next t := hrun

end Sys2Proof.Machine

/-! # The command word -/

namespace Sys2Proof

/-! ### A word written by its fields -/

@[simp] theorem opOf_fields (op rsv : BitVec 4) (arg : BitVec 8) : opOf (op ++ rsv ++ arg) = op := by
  rw [opOf, BitVec.extractLsb'_append_eq_of_le (by decide)]
  exact BitVec.extractLsb'_append_eq_left

@[simp] theorem rsvOf_fields (op rsv : BitVec 4) (arg : BitVec 8) : rsvOf (op ++ rsv ++ arg) = rsv := by
  rw [rsvOf, BitVec.extractLsb'_append_eq_of_le (by decide)]
  exact BitVec.extractLsb'_append_eq_right

@[simp] theorem argOf_fields (op rsv : BitVec 4) (arg : BitVec 8) : argOf (op ++ rsv ++ arg) = arg :=
  BitVec.extractLsb'_append_eq_right

/-- An encodable operand is the value of an ARG field (R113, R114). -/
theorem exists_arg_of_fitsArg {x : Int} (h : fitsArg x = true) : ∃ arg : BitVec 8, x = arg.toNat :=
  ⟨_, (toNat_ofInt_of_fitsArg h).symm⟩

theorem fitsArg_toNat (arg : BitVec 8) : fitsArg arg.toNat = true := by
  have := arg.isLt
  simp only [fitsArg, decide_eq_true_eq]
  omega

theorem argBits_toNat (arg : BitVec 8) : argBits arg.toNat = arg.setWidth 16 := by
  rw [argBits, BitVec.ofInt_natCast, BitVec.ofNat_toNat, BitVec.setWidth_eq]

theorem encode_rNew (arg : BitVec 8) : encode (.rNew arg.toNat) = 0b0001#4 ++ 0b0000#4 ++ arg := by
  rw [encode, argBits_toNat]
  revert arg
  decide

theorem encode_wWrite (arg : BitVec 8) : encode (.wWrite arg.toNat) = 0b1001#4 ++ 0b0000#4 ++ arg := by
  rw [encode, argBits_toNat]
  revert arg
  decide

theorem decode_rNew (arg : BitVec 8) :
    decode .reader (0b0001#4 ++ 0b0000#4 ++ arg) = .ok (.rNew arg.toNat) := by
  simp [-BitVec.reduceAppend, decode, decodeReader, operandOf]

theorem decode_wWrite (arg : BitVec 8) :
    decode .writer (0b1001#4 ++ 0b0000#4 ++ arg) = .ok (.wWrite arg.toNat) := by
  simp [-BitVec.reduceAppend, decode, decodeWriter, operandOf]

/-! ### Encoding and decoding are inverse -/

/-- Settles O1: the operand is the value of its ARG field, and the decoder reads the fields back. -/
theorem decodeOfEncodeIsIdentity : Obligations.DecodeOfEncodeIsIdentity := by
  intro i hi
  cases i with
  | rNew t =>
    obtain ⟨arg, rfl⟩ := exists_arg_of_fitsArg hi
    rw [encode_rNew]
    exact decode_rNew arg
  | wWrite v =>
    obtain ⟨arg, rfl⟩ := exists_arg_of_fitsArg hi
    rw [encode_wWrite]
    exact decode_wWrite arg
  | rRead | wNew | wFlush | wCount => rfl

/-- A decoded command without an operand fixes every field of its word (R115). -/
theorem withoutOperand_eq_ok_fields {w : Word} {i j : Instr} {op : BitVec 4} (hop : opOf w = op)
    (hrsv : rsvOf w = 0b0000#4) (h : withoutOperand w i = .ok j) :
    j = i ∧ w = op ++ 0b0000#4 ++ 0x00#8 := by
  refine ⟨withoutOperand_eq_ok h, ?_⟩
  rw [word_eq_fields w, hop, hrsv, argOf_of_withoutOperand h]

theorem encode_of_decodeReader {w : Word} {i : Instr} (hrsv : rsvOf w = 0b0000#4)
    (h : decodeReader w = .ok i) : i.wellFormed = true ∧ encode i = w := by
  unfold decodeReader at h
  split_ifs at h with hop hop
  · cases h
    refine ⟨fitsArg_toNat _, ?_⟩
    rw [operandOf, encode_rNew, ← hop, ← hrsv, ← word_eq_fields]
  · obtain ⟨rfl, rfl⟩ := withoutOperand_eq_ok_fields hop hrsv h
    exact ⟨rfl, rfl⟩

theorem encode_of_decodeWriter {w : Word} {i : Instr} (hrsv : rsvOf w = 0b0000#4)
    (h : decodeWriter w = .ok i) : i.wellFormed = true ∧ encode i = w := by
  unfold decodeWriter at h
  split_ifs at h with hop hop hop hop
  · obtain ⟨rfl, rfl⟩ := withoutOperand_eq_ok_fields hop hrsv h
    exact ⟨rfl, rfl⟩
  · cases h
    refine ⟨fitsArg_toNat _, ?_⟩
    rw [operandOf, encode_wWrite, ← hop, ← hrsv, ← word_eq_fields]
  · obtain ⟨rfl, rfl⟩ := withoutOperand_eq_ok_fields hop hrsv h
    exact ⟨rfl, rfl⟩
  · obtain ⟨rfl, rfl⟩ := withoutOperand_eq_ok_fields hop hrsv h
    exact ⟨rfl, rfl⟩

/-- Settles O2: OP, RSV = 0 and ARG of a word that decodes are those of its command's encoding. -/
theorem decodedWordIsTheEncoding : Obligations.DecodedWordIsTheEncoding := by
  intro p w i h
  refine ⟨port_of_decode h, ?_⟩
  unfold decode at h
  split_ifs at h with hrsv
  cases p with
  | reader => exact encode_of_decodeReader (not_not.mp hrsv) h
  | writer => exact encode_of_decodeWriter (not_not.mp hrsv) h

/-! ### The rows of the opcode map -/

/-- Under the mask of a command with an operand, OP and RSV are fixed and ARG is free (R112). -/
theorem eq_fields_of_and_mask {w : Word} {op rsv : BitVec 4} (h : w &&& 0xFF00#16 = op ++ rsv ++ 0x00#8) :
    w = op ++ rsv ++ argOf w := by
  have hop : opOf w = op := by
    rw [← opOf_fields op rsv 0x00#8, ← h, opOf, opOf, BitVec.extractLsb'_and]
    exact BitVec.and_allOnes.symm
  have hrsv : rsvOf w = rsv := by
    rw [← rsvOf_fields op rsv 0x00#8, ← h, rsvOf, rsvOf, BitVec.extractLsb'_and]
    exact BitVec.and_allOnes.symm
  rw [← hop, ← hrsv, ← word_eq_fields]

/-- Under the mask of a command without an operand, every field is fixed (R112). -/
theorem eq_of_and_fullMask {w pattern : Word} (h : w &&& 0xFFFF#16 = pattern) : w = pattern :=
  BitVec.and_allOnes.symm.trans h

/-- A word that a row covers decodes, on the row's port, to the command that the row names (R112). -/
theorem decode_of_covers {r : OpcodeRow} {w : Word} (hr : r ∈ opcodeRows) (hw : r.covers w = true) :
    ∃ i, decode r.port w = .ok i ∧ i.mnemonic = r.mnemonic := by
  simp only [opcodeRows, List.mem_cons, List.not_mem_nil, or_false] at hr
  rw [OpcodeRow.covers, beq_iff_eq] at hw
  rcases hr with rfl | rfl | rfl | rfl | rfl | rfl
  · rw [eq_fields_of_and_mask (op := 0b0001#4) (rsv := 0b0000#4) hw]
    exact ⟨_, decode_rNew _, rfl⟩
  · rw [eq_of_and_fullMask hw]
    exact ⟨.rRead, rfl, rfl⟩
  · rw [eq_of_and_fullMask hw]
    exact ⟨.wNew, rfl, rfl⟩
  · rw [eq_fields_of_and_mask (op := 0b1001#4) (rsv := 0b0000#4) hw]
    exact ⟨_, decode_wWrite _, rfl⟩
  · rw [eq_of_and_fullMask hw]
    exact ⟨.wFlush, rfl, rfl⟩
  · rw [eq_of_and_fullMask hw]
    exact ⟨.wCount, rfl, rfl⟩

theorem legalOn_iff {p : Port} {w : Word} :
    legalOn p w = true ↔ ∃ r ∈ opcodeRows, r.port = p ∧ r.covers w = true := by
  simp [legalOn]

/-- Two rows that cover one word have the same pattern under both masks. -/
theorem patterns_agree_of_covers {r r' : OpcodeRow} {w : Word} (h : r.covers w = true)
    (h' : r'.covers w = true) : r.pattern &&& r'.mask = r'.pattern &&& r.mask := by
  rw [OpcodeRow.covers, beq_iff_eq] at h h'
  rw [← h, ← h', BitVec.and_assoc, BitVec.and_assoc, BitVec.and_comm r.mask]

/-- Settles O3: a covered word decodes by its row, and two distinct rows disagree under both masks. -/
theorem legalWordsAreTheTableRows : Obligations.LegalWordsAreTheTableRows := by
  refine ⟨fun p w => ⟨fun ⟨_, h⟩ => legalOn_of_decode h, fun h => ?_⟩, fun w r => decode_of_covers,
    fun w r r' hr hr' h h' => ?_⟩
  · obtain ⟨r, hr, rfl, hw⟩ := legalOn_iff.mp h
    obtain ⟨i, hi, _⟩ := decode_of_covers hr hw
    exact ⟨i, hi⟩
  · have : Std.Symm fun r r' : OpcodeRow => r.pattern &&& r'.mask ≠ r'.pattern &&& r.mask := ⟨fun _ _ => Ne.symm⟩
    by_contra hne
    exact opcodeRows_disjoint.forall hr hr' hne (patterns_agree_of_covers h h')

end Sys2Proof

/-! # A word held off, and the response word -/

namespace Sys2Proof.Machine

/-! ### A busy port -/

/-- A step that finds nothing to take leaves the state (R75, R292). -/
theorem step_of_nextInput_none {s : State} (h : nextInput s s.inputs = none) : step s = .next s := by
  rcases step_cases s with ⟨_, hs⟩ | ⟨e, rest, hsome, _⟩
  · exact hs
  · simp [h] at hsome

/-- An input that cannot be taken lets the one behind it pass, and stays (R300). -/
theorem step_passes {s : State} {e e' : Input} {rest : List Input} (h : s.inputs = e :: e' :: rest)
    (hheld : takes s e = false) (htakes : takes s e' = true) :
    step s = deliver e' { s with inputs := e :: rest } := by
  simp [step, advance, h, nextInput_skips _ hheld, nextInput_takes _ htakes]

/-- Settles O10: a word on a busy port is no input that the core takes, and a word on the other port is. -/
theorem busyPortHoldsTheWord : Obligations.BusyPortHoldsTheWord := by
  refine ⟨fun s p w hinputs hbusy => step_of_nextInput_none ?_,
    fun s p q w v i rest hinputs hbusy hready hdecode => ?_⟩
  · rw [hinputs, nextInput_skips _ (by simp [takes, hbusy])]
    rfl
  · rw [step_passes hinputs (by simp [takes, hbusy]) (by simp [takes, hready]), deliver, runWord, hdecode]

/-! ### The fields of the response word (R118) -/

/-- The four fields of the response word, from the top. -/
theorem word_fields (r : Response) :
    r.word.extractLsb' (Config.countWidth + Config.errWidth + 1) 3 = r.status.code ∧
    r.word.extractLsb' (Config.countWidth + Config.errWidth) 1 = BitVec.ofBool r.bitField ∧
    r.word.extractLsb' Config.errWidth Config.countWidth = r.countField ∧
    r.word.extractLsb' 0 Config.errWidth = r.errField := by
  have hcount : Config.countWidth + Config.errWidth - Config.errWidth = Config.countWidth :=
    Nat.add_sub_cancel _ _
  have hstatus : Config.countWidth + Config.errWidth + 1 - Config.errWidth = Config.countWidth + 1 := by omega
  unfold Response.word
  refine ⟨?_, ?_, ?_, BitVec.extractLsb'_append_eq_right⟩
  · rw [BitVec.extractLsb'_append_eq_of_le (by omega), BitVec.extractLsb'_append_eq_of_le (by omega), hstatus,
      BitVec.extractLsb'_append_eq_of_le (by omega)]
    simp
  · rw [BitVec.extractLsb'_append_eq_of_le (by omega), BitVec.extractLsb'_append_eq_of_le (by omega), hcount,
      Nat.sub_self]
    exact BitVec.extractLsb'_append_eq_right
  · rw [BitVec.extractLsb'_append_eq_of_le (by omega), Nat.sub_self]
    exact BitVec.extractLsb'_append_eq_right

/-- The response with the given fields; a field that its status does not define is dropped (R118, R119). -/
def Response.ofFields (code : BitVec 3) (bit : Bool) (count : Count) (err : ErrToken) : Response :=
  match code.toNat with
  | 0 => .ok bit count
  | 1 => .exhausted
  | 2 => .ioError err
  | 3 => .preconditionViolation
  | 4 => .misuse
  | 5 => .illegalCommand
  | _ => .noInstance

/-- A response is determined by its fields. -/
theorem Response.ofFields_fields (r : Response) :
    Response.ofFields r.status.code r.bitField r.countField r.errField = r := by
  cases r <;> rfl

theorem Response.word_injective {r r' : Response} (h : r.word = r'.word) : r = r' := by
  obtain ⟨hstatus, hbit, hcount, herr⟩ := word_fields r
  obtain ⟨hstatus', hbit', hcount', herr'⟩ := word_fields r'
  rw [h] at hstatus hbit hcount herr
  rw [← r.ofFields_fields, ← r'.ofFields_fields, ← hstatus, ← hcount, ← herr, hstatus', hcount', herr',
    BitVec.ofBool_eq_iff_eq.mp (hbit.symm.trans hbit')]

/-- Only OK defines the BIT and COUNT fields (R118). -/
theorem bitField_countField_of_not_ok {r : Response} (h : r.status ≠ .ok) :
    r.bitField = false ∧ r.countField = 0 := by
  cases r with
  | ok bit count => exact absurd rfl h
  | exhausted | ioError _ | preconditionViolation | misuse | illegalCommand | noInstance => exact ⟨rfl, rfl⟩

/-- Only IO_ERROR defines the ERR field (R118). -/
theorem errField_of_not_ioError {r : Response} (h : r.status ≠ .ioError) : r.errField = 0 := by
  cases r with
  | ioError e => exact absurd rfl h
  | ok _ _ | exhausted | preconditionViolation | misuse | illegalCommand | noInstance => rfl

end Sys2Proof.Machine

namespace Sys2Proof.Machine

/-! ### The responses that a command may end with (R118, R257) -/

/-- The response is one that the command may end with: its status has a check mark (R257), and a field that the
command does not define is 0 (R118). -/
structure MayAnswer (i : Instr) (r : Response) : Prop where
  status : statusAllowed i r.status = true
  bit : i ≠ .rRead → r.bitField = false
  count : i ≠ .wCount → r.countField = 0

/-- A response with BIT and COUNT 0 is one that every command with its status may end with. -/
theorem MayAnswer.bare {i : Instr} {r : Response} (hstatus : statusAllowed i r.status = true)
    (hbit : r.bitField = false) (hcount : r.countField = 0) : MayAnswer i r :=
  ⟨hstatus, fun _ => hbit, fun _ => hcount⟩

/-- From s to t the port delivers no one response other than those described. -/
def AnswersOnly (ok : Response → Prop) (p : Port) (s t : State) : Prop :=
  ∀ r, responses p t = responses p s ++ [r] → ok r

section
variable {ok : Response → Prop} {p : Port} {i : Instr} {s t : State}

theorem answersOnly_of_silent (h : responses p t = responses p s) : AnswersOnly ok p s t := fun r hr => by
  simp [h] at hr

theorem responses_complete (p : Port) (r : Response) (s : State) :
    responses p (complete p r s) = responses p s ++ [r] := by
  cases p <;> rfl

theorem complete_answersOnly {r : Response} (h : responses p t = responses p s) (hr : ok r) :
    AnswersOnly ok p s (complete p r t) := fun r' hr' => by
  rw [responses_complete, h, List.append_cancel_left_eq, List.singleton_inj] at hr'
  exact hr' ▸ hr

/-! #### R.READ -/

theorem surface_answersOnly (h : t.readerOut = s.readerOut) :
    AnswersOnly (MayAnswer .rRead) .reader s (surface t) := by
  rcases surface_cases t with ⟨_, ht⟩ | ⟨_, ht⟩ <;> rw [ht]
  · exact complete_answersOnly h ⟨rfl, nofun, fun _ => rfl⟩
  · exact complete_answersOnly h ⟨rfl, fun hne => absurd rfl hne, fun _ => rfl⟩

theorem establish_answersOnly (b : Byte) (h : t.readerOut = s.readerOut) :
    AnswersOnly (MayAnswer .rRead) .reader s (establish b t) := by
  rcases establish_cases b t with ⟨_, _, _, ht⟩ | ⟨_, ht⟩ <;> rw [ht]
  · exact surface_answersOnly h
  · exact answersOnly_of_silent h

theorem firstPullAnswered_answersOnly (a : PullAnswer) (h : t.readerOut = s.readerOut) :
    AnswersOnly (MayAnswer .rRead) .reader s (firstPullAnswered a t) := by
  cases a with
  | byte b => exact establish_answersOnly b h
  | exhausted | failed e => exact complete_answersOnly h (.bare rfl rfl rfl)

theorem readBit_answersOnly (s : State) : AnswersOnly (MayAnswer .rRead) .reader s (readBit s) := by
  rcases readBit_cases s with ⟨_, h⟩ | ⟨_, _, h⟩ | ⟨_, _, _, h⟩ | ⟨_, _, a, _, _, h⟩ <;> rw [h]
  · exact surface_answersOnly rfl
  · exact establish_answersOnly _ rfl
  · exact answersOnly_of_silent rfl
  · exact firstPullAnswered_answersOnly a rfl

/-- The responses of the lifecycle check of R.READ (R152). -/
theorem mayAnswer_of_readerRefusal {u : ReaderUnit} {r : Response} (h : readerRefusal u = some r) :
    MayAnswer .rRead r := by
  unfold readerRefusal at h
  split at h <;> cases h <;> exact .bare rfl rfl rfl

/-- A late answer ends an R.READ as one held ready would have (R75). -/
theorem answerPull_answersOnly (a : PullAnswer) (s : State) :
    AnswersOnly (MayAnswer .rRead) .reader s (answerPull a s) := by
  unfold answerPull
  split
  · exact answersOnly_of_silent rfl
  · exact firstPullAnswered_answersOnly a rfl
  · exact surface_answersOnly rfl

/-! #### R.NEW and the writer's commands -/

theorem newReader_answersOnly (n : Int) (s : State) :
    AnswersOnly (MayAnswer (.rNew n)) .reader s (newReader n s) := by
  rcases newReader_cases n s with ⟨_, h⟩ | ⟨_, _, h⟩ | ⟨_, _, _, h⟩ <;> rw [h] <;>
    exact complete_answersOnly rfl (.bare rfl rfl rfl)

/-- The responses that a push ends with: OK or IO_ERROR (R211, R221). -/
theorem pushAnswered_answersOnly (a : PushAnswer) (h : t.writerOut = s.writerOut) (hdone : ok .done)
    (herror : ∀ e, ok (.ioError e)) : AnswersOnly ok .writer s (pushAnswered a t) := by
  cases a with
  | ok => exact complete_answersOnly h hdone
  | failed e => exact complete_answersOnly h (herror e)

theorem push_answersOnly (b : Byte) (h : t.writerOut = s.writerOut) (hdone : ok .done)
    (herror : ∀ e, ok (.ioError e)) : AnswersOnly ok .writer s (push b t) := by
  cases hsink : t.sink.answers with
  | nil => rw [push_unanswered b hsink]; exact answersOnly_of_silent h
  | cons a rest => rw [push_answered b hsink]; exact pushAnswered_answersOnly a h hdone herror

theorem answerPush_answersOnly (a : PushAnswer) (s : State) (hdone : ok .done)
    (herror : ∀ e, ok (.ioError e)) : AnswersOnly ok .writer s (answerPush a s) := by
  unfold answerPush
  split
  · exact answersOnly_of_silent rfl
  · exact pushAnswered_answersOnly a rfl hdone herror

theorem acceptBit_answersOnly (v : Int) (s : State) :
    AnswersOnly (MayAnswer (.wWrite v)) .writer s (acceptBit v s) := by
  rcases acceptBit_cases v s with ⟨_, h⟩ | ⟨_, _, h⟩ | ⟨_, _, h⟩ <;> rw [h]
  · exact complete_answersOnly rfl (.bare rfl rfl rfl)
  · exact push_answersOnly _ rfl (.bare rfl rfl rfl) fun _ => .bare rfl rfl rfl
  · exact complete_answersOnly rfl (.bare rfl rfl rfl)

theorem flushPartial_answersOnly (s : State) :
    AnswersOnly (MayAnswer .wFlush) .writer s (flushPartial s) := by
  rcases flushPartial_cases s with ⟨_, h⟩ | ⟨_, h⟩ <;> rw [h]
  · exact complete_answersOnly rfl (.bare rfl rfl rfl)
  · exact push_answersOnly _ rfl (.bare rfl rfl rfl) fun _ => .bare rfl rfl rfl

/-- The lifecycle check of a writer command refuses it with NO_INSTANCE only (R202). -/
theorem onWriter_answersOnly {run : State → State} (hnone : ok .noInstance)
    (hrun : AnswersOnly ok .writer s (run s)) : AnswersOnly ok .writer s (onWriter run s) := by
  unfold onWriter writerRefusal
  cases s.writer.wstate with
  | unconstructed => exact complete_answersOnly rfl hnone
  | active => exact hrun

/-- Every response that a command delivers is one that it may end with. -/
theorem effect_answersOnly (i : Instr) (s : State) : AnswersOnly (MayAnswer i) i.port s (effect i s) := by
  cases i with
  | rNew n => exact newReader_answersOnly n s
  | rRead =>
    rcases onReader_cases readBit s with ⟨r, hr, h⟩ | ⟨_, h⟩ <;> rw [effect, h]
    · exact complete_answersOnly rfl (mayAnswer_of_readerRefusal hr)
    · exact readBit_answersOnly s
  | wNew => exact complete_answersOnly rfl (.bare rfl rfl rfl)
  | wWrite v => exact onWriter_answersOnly (.bare rfl rfl rfl) (acceptBit_answersOnly v s)
  | wFlush => exact onWriter_answersOnly (.bare rfl rfl rfl) (flushPartial_answersOnly s)
  | wCount =>
    exact onWriter_answersOnly (.bare rfl rfl rfl)
      (complete_answersOnly rfl ⟨rfl, fun _ => rfl, fun hne => absurd rfl hne⟩)

theorem exec_answersOnly (h : exec i s = .next t) : AnswersOnly (MayAnswer i) i.port s t := by
  rcases exec_next_cases h with ⟨_, rfl⟩ | ⟨_, rfl⟩
  · exact answersOnly_of_silent rfl
  · exact effect_answersOnly i s

end

/-- Settles O5: the word's fields are those of the response, which determine it, and every response delivered is
one that its command may end with. -/
theorem responseWordLayout : Obligations.ResponseWordLayout := by
  refine ⟨word_fields, fun r => bitField_countField_of_not_ok, fun r => errField_of_not_ioError, fun e => rfl,
    fun i s t r h hr => ?_, fun a s r hr => ?_, fun a s r hr => ?_, fun r r' => Response.word_injective⟩
  · obtain ⟨_, hbit, hcount⟩ := exec_answersOnly h r hr
    exact ⟨hbit, hcount⟩
  · exact (answerPull_answersOnly a s r hr).count nofun
  · exact answerPush_answersOnly (ok := fun r => r.bitField = false ∧ r.countField = 0) a s ⟨rfl, rfl⟩
      (fun _ => ⟨rfl, rfl⟩) r hr

end Sys2Proof.Machine

/-! # The expansions of W.BYTE and W.BITS -/

namespace Sys2Proof.Machine

/-! ### The words of an expansion -/

theorem encode_writeBit (c : Bool) : encode (writeBit c) = 0x9000#16 ||| (BitVec.ofBool c).setWidth 16 := by
  cases c <;> rfl

theorem wByte_eq_writeBits (b : Byte) : wByte b = [7, 6, 5, 4, 3, 2, 1, 0].map fun i => writeBit (b.getLsbD i) :=
  rfl

/-- The canonical operand of a bit denotes that bit (R114). -/
theorem operandBit_writeBit (c : Bool) : operandBit (if c then 1 else 0) = c := by
  cases c <;> rfl

/-! ### Where an expansion stops -/

section
variable {i : Instr} {s t : State}

/-- A command that has answered is no longer in progress, and it gave one response. -/
theorem not_busy_of_response {r : Response} (hready : busy i.port s = false) (h : exec i s = .next t)
    (hr : responses i.port t = responses i.port s ++ [r]) : busy i.port t = false := by
  rcases oneResponsePerCommand i s t hready h with ⟨hidle, _⟩ | ⟨_, hsilent⟩
  · exact hidle
  · simp [hsilent] at hr

theorem responses_of_busy (hready : busy i.port s = false) (h : exec i s = .next t)
    (hbusy : busy i.port t = true) : responses i.port t = responses i.port s := by
  rcases oneResponsePerCommand i s t hready h with ⟨hidle, _⟩ | ⟨_, hsilent⟩
  · simp [hbusy] at hidle
  · exact hsilent

/-- A command answered at once decides by its status whether the sequence goes on (R121, R122). -/
theorem issue_answered {r : Response} (rest : List Instr) (hready : busy i.port s = false)
    (h : exec i s = .next t) (hr : responses i.port t = responses i.port s ++ [r]) :
    issue (i :: rest) s = if r.status = .ok then issue rest t else .next t := by
  have hperform : perform i s = .next t := perform_answered h (not_busy_of_response hready h hr)
  simp [issue_cons rest hready hperform, answeredOk_of_response hr]

/-- A command that no input can answer ends the sequence (R75). -/
theorem issue_hung (rest : List Instr) (hready : busy i.port s = false) (h : exec i s = .next t)
    (hbusy : busy i.port t = true) (hnone : t.inputs = []) : issue (i :: rest) s = .next t := by
  have hwait : awaitPort i.port t = .next t := awaitFor_stuck _ _ (by rw [hnone]; rfl)
  have hperform : perform i s = .next t := by rw [perform, h, andThen_next, hwait]
  simp [issue_cons rest hready hperform, answeredOk_of_none (responses_of_busy hready h hbusy)]

/-- The response that an answer to a push gives (R211, R221). -/
def PushAnswer.response : PushAnswer → Response
  | .ok => .done
  | .failed e => .ioError e

/-- A late answer to a push ends its command. -/
theorem answerPush_of_busy (a : PushAnswer) (hbusy : busy .writer t = true) :
    answerPush a t = complete .writer a.response t := by
  obtain ⟨b, hb⟩ := Option.isSome_iff_exists.mp hbusy
  rw [answerPush, hb]
  cases a <;> rfl

/-- A late answer to a push decides by its status whether the sequence goes on (R75, R121). -/
theorem issue_late (a : PushAnswer) (rest : List Instr) {more : List Input} (hi : i.port = .writer)
    (hready : busy .writer s = false) (h : exec i s = .next t) (hbusy : busy .writer t = true)
    (hinputs : t.inputs = .pushAnswer a :: more) :
    issue (i :: rest) s =
      if a.response.status = .ok then issue rest (answerPush a { t with inputs := more })
      else .next (answerPush a { t with inputs := more }) := by
  set u := answerPush a { t with inputs := more }
  have hu : u = complete .writer a.response { t with inputs := more } := answerPush_of_busy a hbusy
  have hsilent : t.writerOut = s.writerOut := by
    have := responses_of_busy (hi ▸ hready) h (hi ▸ hbusy)
    rwa [hi] at this
  have hresponse : responses .writer u = responses .writer s ++ [a.response] := by
    rw [hu, responses_complete]
    exact congrArg (· ++ [a.response]) hsilent
  have hstep : step t = .next u := step_of_head hinputs rfl
  have hwait : awaitPort .writer t = .next u := awaitPort_head hbusy hinputs hstep (by rw [hu]; rfl)
  have hperform : perform i s = .next u := by rw [perform, h, andThen_next, hi, hwait]
  simp [issue_cons rest (hi ▸ hready) hperform, hi, answeredOk_of_response hresponse]

end

/-! ### W.BYTE at a byte boundary -/

/-- An idle ACTIVE writer that holds no bits is at a byte boundary (R41). -/
theorem Filling.wcur_nil {w : WriterUnit} (h : Filling [] w) : w.wcur = 7#3 :=
  BitVec.eq_of_toNat_eq h.wcur

theorem filling_nil {w : WriterUnit} (hidle : w.pending = none) (hactive : w.wstate = .active)
    (hunsealed : w.sealed = false) (hwcur : w.wcur = 7#3) (hscr : w.scr = 0#8) : Filling [] w :=
  ⟨hidle, hactive, hunsealed, hscr, by rw [hwcur]; rfl⟩

/-- A writer that stood at a byte boundary, once it has accepted up to seven bits (R211). -/
def WriterUnit.holding (bits : List Bool) (w : WriterUnit) : WriterUnit :=
  { w with
    count := w.count + BitVec.ofNat _ bits.length
    scr := placeBits 7 bits
    wcur := 7#3 - BitVec.ofNat 3 bits.length }

/-- The state once the writer has accepted up to seven bits, each answered OK (R211). -/
def State.holding (bits : List Bool) (s : State) : State :=
  { s with
    writer := s.writer.holding bits
    writerOut := s.writerOut ++ List.replicate bits.length .done }

/-- The state once the writer has accepted a byte's eight bits and has still to push the byte (R211). -/
def State.byteAccepted (s : State) : State :=
  { s with
    writer := { s.writer with count := s.writer.count + 8 }
    writerOut := s.writerOut ++ List.replicate 7 .done }

section
variable {bits : List Bool} {s : State} (hstart : Filling [] s.writer)
include hstart

theorem holding_nil : s.holding [] = s := by
  have hw : s.writer.holding [] = s.writer := by
    simp [WriterUnit.holding, ← hstart.scr, ← hstart.wcur_nil]
  simp [State.holding, hw]

theorem filling_holding (hlen : bits.length ≤ 7) : Filling bits (s.holding bits).writer := by
  refine ⟨hstart.idle, hstart.active, hstart.unsealed, rfl, ?_⟩
  simp [State.holding, WriterUnit.holding, BitVec.toNat_sub]
  omega

/-- A bit within the byte (R211). -/
theorem exec_writeBit_within (c : Bool) (hlen : bits.length < 7) :
    exec (writeBit c) (s.holding bits) = .next (s.holding (bits ++ [c])) := by
  have hfill := filling_holding hstart (Nat.le_of_lt hlen)
  have hwcur := hfill.wcur
  refine (execWWrite_active _ hfill.idle hfill.active).trans (congrArg _ ?_)
  rcases acceptBit_cases (if c then 1 else 0) (s.holding bits) with ⟨hs, _⟩ | ⟨_, hc, _⟩ | ⟨_, _, ht⟩
  · simp [hfill.unsealed] at hs
  · simp [hc] at hwcur
    omega
  · rw [ht, hfill.filled, operandBit_writeBit]
    have hcount : countUp (s.writer.count + BitVec.ofNat _ bits.length) =
        s.writer.count + BitVec.ofNat _ (bits.length + 1) := by
      rw [BitVec.ofNat_add, ← BitVec.add_assoc]
      rfl
    have hcursor : cursorDown (7#3 - BitVec.ofNat 3 bits.length) = 7#3 - BitVec.ofNat 3 (bits.length + 1) := by
      rw [BitVec.ofNat_add, ← sub_sub]
      rfl
    simp [State.holding, WriterUnit.holding, complete, hcount, hcursor, hstart.idle, List.replicate_succ']

/-- The eighth bit completes the byte (R211). -/
theorem exec_writeBit_completes (c : Bool) (hlen : bits.length = 7) :
    exec (writeBit c) (s.holding bits) = .next (push (placeBits 7 (bits ++ [c])) s.byteAccepted) := by
  have hfill := filling_holding hstart (Nat.le_of_eq hlen)
  have hwcur := hfill.wcur
  refine (execWWrite_active _ hfill.idle hfill.active).trans (congrArg _ ?_)
  rcases acceptBit_cases (if c then 1 else 0) (s.holding bits) with ⟨hs, _⟩ | ⟨_, _, ht⟩ | ⟨_, hc, _⟩
  · simp [hfill.unsealed] at hs
  · rw [ht, hfill.filled, operandBit_writeBit]
    have hcount : countUp (s.writer.count + 7#64) = s.writer.count + 8 := BitVec.add_assoc _ _ _
    simp [State.holding, WriterUnit.holding, State.byteAccepted, hlen, hcount, hstart.scr, hstart.wcur_nil, placeBits]
  · exact absurd (BitVec.eq_of_toNat_eq (by simp; omega)) hc

/-- Bits within the byte are written one after the other. -/
theorem issue_wBits_within (new : List Bool) (rest : List Instr) (hlen : bits.length + new.length ≤ 7) :
    issue (wBits new ++ rest) (s.holding bits) = issue rest (s.holding (bits ++ new)) := by
  induction new generalizing bits with
  | nil => simp [wBits]
  | cons c new ih =>
    rw [List.length_cons] at hlen
    have hfill := filling_holding hstart (bits := bits) (by omega)
    have hexec := exec_writeBit_within hstart c (bits := bits) (by omega)
    have hout : (s.holding (bits ++ [c])).writerOut = (s.holding bits).writerOut ++ [.done] := by
      simp [State.holding, List.replicate_succ']
    calc issue (wBits (c :: new) ++ rest) (s.holding bits)
        = issue (wBits new ++ rest) (s.holding (bits ++ [c])) :=
          issue_answered (i := writeBit c) _ hfill.ready hexec hout
      _ = issue rest (s.holding (bits ++ c :: new)) := by
          rw [ih (by simp; omega), List.append_assoc, List.singleton_append]

/-- W.BYTE at a byte boundary comes down to its last W.WRITE. -/
theorem issue_wByte (b : Byte) :
    issue (wByte b) s = issue [writeBit (b.getLsbD 0)] (s.holding ((bitsOf b).take 7)) := by
  have h := issue_wBits_within hstart (bits := []) ((bitsOf b).take 7) [writeBit (b.getLsbD 0)] (by simp [bitsOf])
  rw [holding_nil hstart] at h
  exact h

/-- The byte's last response, delivered once the sink has accepted the byte. -/
theorem complete_byteAccepted (sink : SinkPort) (inputs : List Input) :
    complete .writer .done { s.byteAccepted with sink := sink, inputs := inputs } =
      { s with
        writer := { s.writer with count := s.writer.count + 8 }
        sink := sink
        writerOut := s.writerOut ++ List.replicate 8 (.ok false 0)
        inputs := inputs } := by
  simp [State.byteAccepted, complete, hstart.idle, Response.done, List.replicate_succ']

end

/-- The bits of a byte, MSB first, make up the byte (R8). -/
theorem placeBits_bitsOf : ∀ b : Byte, placeBits 7 ((bitsOf b).take 7 ++ [b.getLsbD 0]) = b := by
  decide

theorem exec_wByte_last {s : State} (hstart : Filling [] s.writer) (b : Byte) :
    exec (writeBit (b.getLsbD 0)) (s.holding ((bitsOf b).take 7)) = .next (push b s.byteAccepted) := by
  rw [exec_writeBit_completes hstart _ rfl, placeBits_bitsOf]

/-- W.BYTE pushes its byte, the sink accepting at once (R121). -/
theorem issue_wByte_accepted {s : State} {rest : List PushAnswer} (b : Byte) (hstart : Filling [] s.writer)
    (hsink : s.sink.answers = .ok :: rest) :
    issue (wByte b) s = .next
      { s with
        writer := { s.writer with count := s.writer.count + 8 }
        sink := { answers := rest, pushed := s.sink.pushed ++ [b] }
        writerOut := s.writerOut ++ List.replicate 8 (.ok false 0) } := by
  have hexec := exec_wByte_last hstart b
  rw [push_answered b (s := s.byteAccepted) hsink] at hexec
  have hready := (filling_holding hstart (bits := (bitsOf b).take 7) (Nat.le_refl 7)).ready
  calc issue (wByte b) s
      = issue [writeBit (b.getLsbD 0)] (s.holding ((bitsOf b).take 7)) := issue_wByte hstart b
    _ = .next (complete .writer .done
          { s.byteAccepted with sink := { answers := rest, pushed := s.sink.pushed ++ [b] } }) :=
        issue_answered (i := writeBit (b.getLsbD 0)) [] hready hexec rfl
    _ = _ := congrArg _ (complete_byteAccepted hstart _ s.inputs)

/-- W.BYTE pushes its byte, the sink accepting late (R75, R121). -/
theorem issue_wByte_accepted_late {s : State} {more : List Input} (b : Byte) (hstart : Filling [] s.writer)
    (hsink : s.sink.answers = []) (hinputs : s.inputs = .pushAnswer .ok :: more) :
    issue (wByte b) s = .next
      { s with
        writer := { s.writer with count := s.writer.count + 8 }
        sink := { answers := [], pushed := s.sink.pushed ++ [b] }
        writerOut := s.writerOut ++ List.replicate 8 (.ok false 0)
        inputs := more } := by
  have hexec := exec_wByte_last hstart b
  rw [push_unanswered b (s := s.byteAccepted) hsink] at hexec
  have hready := (filling_holding hstart (bits := (bitsOf b).take 7) (Nat.le_refl 7)).ready
  calc issue (wByte b) s
      = issue [writeBit (b.getLsbD 0)] (s.holding ((bitsOf b).take 7)) := issue_wByte hstart b
    _ = .next (complete .writer .done
          { s.byteAccepted with sink := { s.sink with pushed := s.sink.pushed ++ [b] }, inputs := more }) :=
        issue_late (i := writeBit (b.getLsbD 0)) .ok [] rfl hready hexec rfl hinputs
    _ = _ := congrArg _ (complete_byteAccepted hstart _ more)
    _ = _ := by rw [← hsink]

/-- Settles O51: seven W.WRITEs fill the byte and the eighth pushes it; where an expansion stops is said by the
response of the command issued, at once or late. -/
theorem wByteWritesTheByte : Obligations.WByteWritesTheByte := by
  refine ⟨fun b => ?_, fun bits => ?_, fun b s rest hidle hactive hunsealed hwcur hscr hsink => ?_,
    fun b s more hidle hactive hunsealed hwcur hscr hsink hinputs => ?_, fun i rest s t hready h => ?_⟩
  · simp [wByte_eq_writeBits, encode_writeBit]
  · rw [wBits, List.map_map]
    refine List.map_congr_left fun c _ => ?_
    cases c <;> rfl
  · exact issue_wByte_accepted b (filling_nil hidle hactive hunsealed hwcur hscr) hsink
  · exact issue_wByte_accepted_late b (filling_nil hidle hactive hunsealed hwcur hscr) hsink hinputs
  · refine ⟨fun r hr hstop => ?_, fun r hr hok => ?_, issue_hung rest hready h,
      fun more hi hbusy hinputs => ?_, fun e more hi hbusy hinputs => ?_⟩
    · rw [issue_answered rest hready h hr, if_neg hstop]
    · rw [issue_answered rest hready h hr, if_pos hok]
    · exact issue_late .ok rest hi (hi ▸ hready) h hbusy hinputs
    · exact issue_late (.failed e) rest hi (hi ▸ hready) h hbusy hinputs

end Sys2Proof.Machine

/-! # The assembler -/

namespace Sys2Proof.Machine

/-! ### Numbers -/

theorem numberFrom_append (base acc : Nat) (xs ys : List Char) :
    numberFrom base acc (xs ++ ys) = (numberFrom base acc xs).bind (numberFrom base · ys) := by
  induction xs generalizing acc with
  | nil => rfl
  | cons c xs ih =>
    rw [List.cons_append, numberFrom, numberFrom]
    cases digitOf c with
    | none => rfl
    | some d =>
      dsimp only
      split
      · exact ih _
      · rfl

theorem digitOf_digitChar : ∀ d < 16, digitOf (Nat.digitChar d) = some d := by
  decide

/-- A digit of the base is read as its value. -/
theorem numberFrom_digitChar {base d : Nat} (acc : Nat) (hbase : base ≤ 16) (hd : d < base) :
    numberFrom base acc [Nat.digitChar d] = some (acc * base + d) := by
  rw [numberFrom, digitOf_digitChar d (by omega)]
  simp [hd, numberFrom]

/-- The digits of a number are read back as the number (R120). -/
theorem numberFrom_toDigits {base : Nat} (hlow : 1 < base) (hhigh : base ≤ 16) (n : Nat) :
    numberFrom base 0 (Nat.toDigits base n) = some n := by
  induction n using Nat.strongRecOn with
  | ind n ih =>
    by_cases hn : n < base
    · rw [Nat.toDigits_of_lt_base hn, numberFrom_digitChar 0 hhigh hn, Nat.zero_mul, Nat.zero_add]
    · have hpos : 0 < base := by omega
      rw [Nat.toDigits_of_base_le hlow (by omega), numberFrom_append, ih (n / base) (Nat.div_lt_self (by omega) hlow),
        Option.bind_some, numberFrom_digitChar _ hhigh (Nat.mod_lt n hpos), Nat.div_add_mod']

/-- Every character of a number that is read is a digit. -/
theorem digitOf_ne_none_of_mem {base acc n : Nat} {word : List Char} (h : numberFrom base acc word = some n)
    {c : Char} (hc : c ∈ word) : digitOf c ≠ none := by
  induction word generalizing acc with
  | nil => cases hc
  | cons c' word ih =>
    rw [numberFrom] at h
    cases hd : digitOf c' with
    | none => simp [hd] at h
    | some d =>
      simp only [hd] at h
      split at h
      · rcases List.mem_cons.mp hc with rfl | hc
        · simp [hd]
        · exact ih h hc
      · cases h

/-- Without an `x`, a run of characters is read as a decimal number. -/
theorem numberOf_decimal {word : List Char} (hne : word ≠ []) (hx : 'x' ∉ word) :
    numberOf word = numberFrom 10 0 word := by
  unfold numberOf
  split
  · exact absurd rfl hne
  · simp at hx
  · rfl

theorem numberOf_hexadecimal {digits : List Char} (hne : digits ≠ []) :
    numberOf ('0' :: 'x' :: digits) = numberFrom 16 0 digits := by
  obtain ⟨c, rest, rfl⟩ := List.exists_cons_of_ne_nil hne
  rfl

/-- A number in decimal or after `0x` is read back as the number (R120). -/
theorem numberOf_digits {n : Nat} {digits : List Char}
    (h : digits = Nat.toDigits 10 n ∨ digits = '0' :: 'x' :: Nat.toDigits 16 n) : numberOf digits = some n := by
  rcases h with rfl | rfl
  · have hread := numberFrom_toDigits (base := 10) (by decide) (by decide) n
    have hx : 'x' ∉ Nat.toDigits 10 n := fun hx => digitOf_ne_none_of_mem hread hx rfl
    rw [numberOf_decimal Nat.toDigits_ne_nil hx, hread]
  · rw [numberOf_hexadecimal Nat.toDigits_ne_nil, numberFrom_toDigits (by decide) (by decide)]

/-! ### The words of a line -/

/-- The characters are one word of a line: none of them separates words or begins a comment. -/
structure IsWord (word : List Char) : Prop where
  nonempty : word ≠ []
  plain : ∀ c ∈ word, c ≠ ';' ∧ c ≠ ' ' ∧ c ≠ '\t'

theorem isWord_toDigits {base : Nat} (hlow : 1 < base) (hhigh : base ≤ 16) (n : Nat) :
    IsWord (Nat.toDigits base n) := by
  refine ⟨Nat.toDigits_ne_nil, fun c hc => ?_⟩
  have hdigit := digitOf_ne_none_of_mem (numberFrom_toDigits hlow hhigh n) hc
  refine ⟨?_, ?_, ?_⟩ <;> rintro rfl <;> exact hdigit rfl

theorem IsWord.cons {c : Char} {word : List Char} (h : IsWord word) (hc : c ≠ ';' ∧ c ≠ ' ' ∧ c ≠ '\t') :
    IsWord (c :: word) :=
  ⟨by simp, List.forall_mem_cons.mpr ⟨hc, h.plain⟩⟩

theorem isWord_digits {n : Nat} {digits : List Char}
    (h : digits = Nat.toDigits 10 n ∨ digits = '0' :: 'x' :: Nat.toDigits 16 n) : IsWord digits := by
  rcases h with rfl | rfl
  · exact isWord_toDigits (by decide) (by decide) n
  · exact ((isWord_toDigits (by decide) (by decide) n).cons (by decide)).cons (by decide)

/-- A line with no `;` has no comment. -/
theorem withoutComment_of_notMem {line : List Char} (h : ';' ∉ line) : withoutComment line = line := by
  induction line with
  | nil => rfl
  | cons c line ih =>
    rw [List.mem_cons, not_or] at h
    rw [withoutComment, if_neg (Ne.symm h.1), ih h.2]

/-- The comment is dropped (R120). -/
theorem withoutComment_append_comment (line comment : List Char) :
    withoutComment (line ++ ';' :: comment) = withoutComment line := by
  induction line with
  | nil => rfl
  | cons c line ih => rw [List.cons_append, withoutComment, withoutComment, ih]

/-- A run of characters without separators goes on with the word being read. -/
theorem wordsFrom_append {word : List Char} (current rest : List Char)
    (hplain : ∀ c ∈ word, c ≠ ';' ∧ c ≠ ' ' ∧ c ≠ '\t') :
    wordsFrom current (word ++ rest) = wordsFrom (current ++ word) rest := by
  induction word generalizing current with
  | nil => rw [List.nil_append, List.append_nil]
  | cons c word ih =>
    obtain ⟨⟨_, hspace, htab⟩, hplain⟩ := List.forall_mem_cons.mp hplain
    rw [List.cons_append, wordsFrom, if_neg (by simp [hspace, htab]), ih _ hplain, List.append_assoc,
      List.singleton_append]

theorem IsWord.wordsFrom_nil {word : List Char} (h : IsWord word) : wordsFrom [] word = [word] := by
  have := wordsFrom_append [] [] h.plain
  rw [List.append_nil, List.nil_append] at this
  simp [this, wordsFrom, h.nonempty]

/-- A mnemonic and an operand, with a space between them, are the two words of their line. -/
theorem assembleLine_operand {mnemonic operand : List Char} (hm : IsWord mnemonic) (ho : IsWord operand) :
    assembleLine (mnemonic ++ ' ' :: operand) = assembleWords [mnemonic, operand] := by
  have hcomment : ';' ∉ mnemonic ++ ' ' :: operand := by
    simp only [List.mem_append, List.mem_cons, not_or]
    exact ⟨fun h => (hm.plain _ h).1 rfl, by decide, fun h => (ho.plain _ h).1 rfl⟩
  rw [assembleLine, withoutComment_of_notMem hcomment, wordsFrom_append [] _ hm.plain, List.nil_append, wordsFrom,
    if_pos (.inl rfl), if_neg (by simp [hm.nonempty]), ho.wordsFrom_nil]

/-! ### Operands -/

/-- An operand is what its number says or is out of range; it is never truncated (R120). -/
theorem asmOperand_of_numberOf {x : List Char} {n : Nat} (h : numberOf x = some n) :
    asmOperand x = if n ≤ 255 then .ok n else .error .outOfRange := by
  rw [asmOperand, h]

theorem le_of_asmOperand {x : List Char} {n : Nat} (h : asmOperand x = .ok n) : n ≤ 255 := by
  unfold asmOperand at h
  split at h
  · cases h
  · split at h
    · rename_i hn
      cases h
      exact hn
    · cases h

/-- The commands of R.NEW and W.WRITE are made of an operand of 0 to 255. -/
theorem le_of_map_asmOperand {x : List Char} {f : Int → List Instr} {program : List Instr}
    (h : (asmOperand x >>= fun n => pure (n : Int)).map f = .ok program) : ∃ n : Nat, n ≤ 255 ∧ program = f n := by
  cases hx : asmOperand x with
  | error e => rw [hx] at h; cases h
  | ok n => rw [hx] at h; cases h; exact ⟨n, le_of_asmOperand hx, rfl⟩

/-- The operand of a line is what its number says (R120, R121). -/
theorem assembleWords_operand {x : List Char} {n : Nat} (h : numberOf x = some n) :
    assembleWords [['R', '.', 'N', 'E', 'W'], x] =
      (if n ≤ 255 then .ok [.rNew n] else .error .outOfRange) ∧
    assembleWords [['W', '.', 'W', 'R', 'I', 'T', 'E'], x] =
      (if n ≤ 255 then .ok [.wWrite n] else .error .outOfRange) ∧
    assembleWords [['W', '.', 'B', 'Y', 'T', 'E'], x] =
      (if n ≤ 255 then .ok (wByte (BitVec.ofNat 8 n)) else .error .outOfRange) := by
  simp only [assembleWords, asmOperand_of_numberOf h]
  split <;> exact ⟨rfl, rfl, rfl⟩

theorem asmBits_quoted (bits : List Bool) :
    asmBits ((bits.map fun c => if c then '1' else '0') ++ ['"']) = some bits := by
  induction bits with
  | nil => rfl
  | cons c bits ih => cases c <;> simp [asmBits, ih]

theorem assembleWords_wBits {s : List Char} {bits : List Bool} (h : asmBits s = some bits) :
    assembleWords [['W', '.', 'B', 'I', 'T', 'S'], '"' :: s] = .ok (wBits bits) := by
  simp only [assembleWords, h]

theorem isWord_quoted (bits : List Bool) :
    IsWord ('"' :: (bits.map fun c => if c then '1' else '0') ++ ['"']) := by
  refine ⟨by simp, fun c hc => ?_⟩
  simp only [List.cons_append, List.mem_cons, List.mem_append, List.mem_map, List.not_mem_nil, or_false] at hc
  rcases hc with rfl | ⟨b, _, rfl⟩ | rfl
  · decide
  · cases b <;> decide
  · decide

theorem assembleLine_wBits (bits : List Bool) :
    assembleLine (['W', '.', 'B', 'I', 'T', 'S', ' ', '"'] ++ (bits.map fun c => if c then '1' else '0') ++ ['"']) =
      .ok (wBits bits) := by
  refine (assembleLine_operand (mnemonic := ['W', '.', 'B', 'I', 'T', 'S']) ⟨by simp, by simp⟩
    (isWord_quoted bits)).trans ?_
  exact assembleWords_wBits (asmBits_quoted bits)

/-! ### Every assembled command has an encoding -/

theorem wellFormed_of_le {n : Nat} (hn : n ≤ 255) :
    (Instr.rNew n).wellFormed = true ∧ (Instr.wWrite n).wellFormed = true := by
  simp only [Instr.wellFormed, fitsArg, decide_eq_true_eq]
  omega

theorem wellFormed_of_mem_wBits {bits : List Bool} {i : Instr} (h : i ∈ wBits bits) : i.wellFormed = true := by
  obtain ⟨c, _, rfl⟩ := List.mem_map.mp h
  cases c <;> rfl

theorem wellFormed_of_assembleWords {words : List (List Char)} {program : List Instr}
    (h : assembleWords words = .ok program) : ∀ i ∈ program, i.wellFormed = true := by
  unfold assembleWords at h
  split at h
  · cases h; simp
  · cases h; simp [Instr.wellFormed]
  · cases h; simp [Instr.wellFormed]
  · cases h; simp [Instr.wellFormed]
  · cases h; simp [Instr.wellFormed]
  · obtain ⟨n, hn, rfl⟩ := le_of_map_asmOperand h
    simpa using (wellFormed_of_le hn).1
  · obtain ⟨n, hn, rfl⟩ := le_of_map_asmOperand h
    simpa using (wellFormed_of_le hn).2
  · rename_i x
    cases hx : asmOperand x with
    | error e => rw [hx] at h; cases h
    | ok n => rw [hx] at h; cases h; exact fun i => wellFormed_of_mem_wBits
  · split at h
    · cases h
      exact fun i => wellFormed_of_mem_wBits
    · cases h
  · cases h

theorem wellFormed_of_assemble {lines : List (List Char)} {program : List Instr}
    (h : assemble lines = .ok program) : ∀ i ∈ program, i.wellFormed = true := by
  induction lines generalizing program with
  | nil => cases h; simp
  | cons line lines ih =>
    unfold assemble at h
    split at h
    · rename_i here there hhere hthere
      cases h
      intro i hi
      rcases List.mem_append.mp hi with hi | hi
      · exact wellFormed_of_assembleWords hhere i hi
      · exact ih hthere i hi
    · cases h
    · cases h

/-- Settles O59: the digits of a number are read back as that number, which is refused above 255; a line's commands
are those of its words. -/
theorem assembledCommandsAreWellFormed : Obligations.AssembledCommandsAreWellFormed := by
  refine ⟨fun n digits hdigits => ?_, fun x n => assembleWords_operand, rfl, rfl, rfl, rfl, assembleLine_wBits,
    fun line comment => ?_, fun lines program => wellFormed_of_assemble⟩
  · obtain ⟨hNew, hWrite, hByte⟩ := assembleWords_operand (numberOf_digits hdigits)
    have hword := isWord_digits hdigits
    exact ⟨(assembleLine_operand ⟨by simp, by simp⟩ hword).trans hNew,
      (assembleLine_operand ⟨by simp, by simp⟩ hword).trans hWrite,
      (assembleLine_operand ⟨by simp, by simp⟩ hword).trans hByte⟩
  · rw [assembleLine, withoutComment_append_comment, assembleLine]

end Sys2Proof.Machine

/-! # The reader unit's commands -/

namespace Sys2Proof.Machine

/-! ### Construction and refusal -/

/-- On an idle reader a response is all that the end of a command adds (R12). -/
theorem complete_reader_idle (r : Response) {s : State} (hidle : s.reader.pending = none) :
    complete .reader r s = { s with readerOut := s.readerOut ++ [r] } := by
  rw [complete, ← hidle]

/-- The integers 0 to 7 are trash counts (R113, R151). -/
theorem trashCount_legal {t : Int} (hlow : 0 ≤ t) (hhigh : t < 8) : trashCount t = some (BitVec.ofInt 3 t) := by
  simp only [trashCount, Config.trashMax]
  exact if_pos (by omega)

/-- Settles O16: of the three outcomes of R.NEW, RSTATE and the count's range select one. -/
theorem rNewConstructsOrFaults : Obligations.RNewConstructsOrFaults := by
  refine ⟨decode_rNew, fun t s hidle => ?_⟩
  rw [execRNew_ready t hidle]
  rcases newReader_cases t s with ⟨hf, h⟩ | ⟨hf, hcount, h⟩ | ⟨hf, trash, hcount, h⟩ <;> rw [h]
  · rw [complete_reader_idle _ hidle]
    exact ⟨fun _ => rfl, fun hne => absurd hf hne, fun hne => absurd hf hne⟩
  · rw [complete_reader_idle _ (by exact hidle)]
    refine ⟨fun hfaulted => absurd hfaulted hf, fun _ _ => rfl, fun _ hlow hhigh => ?_⟩
    cases hcount.symm.trans (trashCount_legal hlow hhigh)
  · obtain ⟨hlow, hhigh, rfl⟩ := trashCount_eq_some hcount
    exact ⟨fun hfaulted => absurd hfaulted hf, fun _ hillegal => absurd hillegal (by omega), fun _ _ _ => rfl⟩

/-- Settles O17: the lifecycle check answers, and on an idle reader its answer is all that changes. -/
theorem rReadRefusedUnlessActive : Obligations.RReadRefusedUnlessActive := by
  intro s hidle
  constructor <;> intro hstate <;>
    rw [execRRead_refused hidle (by rw [readerRefusal, hstate]), complete_reader_idle _ hidle]

/-! ### R.READ within a byte -/

theorem endOfData_iff {r : ReaderUnit} :
    r.endOfData = true ↔ r.lav = false ∧ r.rcur.toNat < r.trash.toNat := by
  simp [ReaderUnit.endOfData, BitVec.lt_def]

/-- On padding an R.READ only reports EXHAUSTED (R161). -/
theorem readBit_padding {s : State} (hidle : s.reader.pending = none) (hcur : s.reader.rcur ≠ 7#3)
    (hend : s.reader.endOfData = true) : readBit s = { s with readerOut := s.readerOut ++ [.exhausted] } := by
  rw [readBit_within hcur, surface_endOfData hend, complete_reader_idle _ hidle]

/-- Before the padding an R.READ surfaces the bit at RCUR (R162). -/
theorem readBit_surfaces {s : State} (hidle : s.reader.pending = none) (hcur : s.reader.rcur ≠ 7#3)
    (hdata : s.reader.endOfData = false) :
    readBit s =
      { s with
        reader := { s.reader with rcur := cursorDown s.reader.rcur }
        readerOut := s.readerOut ++ [.ok s.reader.currentBit 0] } := by
  rw [readBit_within hcur, surface_bit hdata]
  exact complete_reader_idle _ hidle

/-- Settles O18: within a byte R.READ is steps 2 and 3. -/
theorem rReadWithinAByte : Obligations.RReadWithinAByte := by
  intro s hidle hactive hcur
  rw [execRRead_active hidle hactive]
  split_ifs with hend
  · rw [readBit_padding hidle hcur (endOfData_iff.mpr hend)]
  · rw [readBit_surfaces hidle hcur (Bool.eq_false_iff.mpr (mt endOfData_iff.mp hend))]
    rfl

/-! ### A load -/

/-- A byte established on an idle reader, with the look-ahead pull's answer ready (R160, R163, R165). -/
theorem establish_latches (b : Byte) {a : PullAnswer} {rest : List PullAnswer} {s : State}
    (hidle : s.reader.pending = none) (hcur : s.reader.rcur = 7#3) (hsource : s.source.answers = a :: rest) :
    establish b s =
      { s with
        reader := { ReaderUnit.latch a s.reader with cur := b, rcur := 6#3 }
        source := { answers := rest, pulls := s.source.pulls + 1 }
        readerOut := s.readerOut ++ [.ok (b.getLsbD 7) 0] } := by
  rw [establish, pull_answered _ _ (by exact hsource), lookAheadAnswered, surface_load (by simpa using hcur), ← hidle]
  cases a <;> rfl

/-- Settles O19: the promoted byte is established, and the answer latched. -/
theorem rReadPromotesTheLookAhead : Obligations.RReadPromotesTheLookAhead := by
  intro s a rest hidle hactive hcur hlav hsource
  rw [execRRead_active hidle hactive, readBit_promote hcur hlav, establish_latches _ hidle hcur hsource]
  cases a <;> rfl

/-- A first pull that delivers a byte establishes it (R160). -/
theorem readBit_firstPull_byte {s : State} {b : Byte} {rest : List PullAnswer} (hcur : s.reader.rcur = 7#3)
    (hlav : s.reader.lav = false) (hsource : s.source.answers = .byte b :: rest) :
    readBit s = establish b { s with source := { answers := rest, pulls := s.source.pulls + 1 } } := by
  rw [readBit_firstPull hcur hlav, pull_answered _ _ hsource, firstPullAnswered]

/-- Settles O20: the byte of the first pull is established, and the answer to the second latched. -/
theorem rReadLoadsThePulledByte : Obligations.RReadLoadsThePulledByte := by
  intro s b a rest hidle hactive hcur hlav hsource
  rw [execRRead_active hidle hactive, readBit_firstPull_byte hcur hlav hsource,
    establish_latches b (by exact hidle) (by exact hcur) rfl]
  cases a <;> rfl

/-- A first pull that finds the source exhausted takes its answer and writes no register (R164). -/
theorem readBit_firstPull_exhausted {s : State} {rest : List PullAnswer} (hidle : s.reader.pending = none)
    (hcur : s.reader.rcur = 7#3) (hlav : s.reader.lav = false) (hsource : s.source.answers = .exhausted :: rest) :
    readBit s =
      { s with
        source := { answers := rest, pulls := s.source.pulls + 1 }
        readerOut := s.readerOut ++ [.exhausted] } := by
  rw [readBit_firstPull hcur hlav, pull_answered _ _ hsource, firstPullAnswered]
  exact complete_reader_idle _ hidle

/-- Settles O21: a first pull's answer without a byte ends the command with its response. -/
theorem rReadFirstPullOutcomes : Obligations.RReadFirstPullOutcomes := by
  intro s rest hidle hactive hcur hlav
  rw [execRRead_active hidle hactive]
  refine ⟨fun hsource => by rw [readBit_firstPull_exhausted hidle hcur hlav hsource], fun e hsource => ?_⟩
  rw [readBit_firstPull hcur hlav, pull_answered _ _ hsource, firstPullAnswered,
    complete_reader_idle _ (by exact hidle)]

/-- If establishing CUR delivers a response, it is OK with bit 7 of CUR (R163). -/
theorem establish_surfaces_bitSeven {b : Byte} {s : State} {r : Response} (hcur : s.reader.rcur = 7#3)
    (h : (establish b s).readerOut = s.readerOut ++ [r]) :
    r = .ok ((establish b s).reader.cur.getLsbD 7) 0 ∧ (establish b s).reader.rcur = 6#3 := by
  rcases establish_cases b s with ⟨a, rest, _, ht⟩ | ⟨_, ht⟩
  · rw [surface_load (by simpa using hcur)] at ht
    rw [ht] at h ⊢
    exact ⟨by simpa using h.symm, rfl⟩
  · simp [ht] at h

/-- Settles O23: a load establishes a byte, and steps 2 and 3 then start with the cursor at 7. -/
theorem aLoadSurfacesBitSeven : Obligations.ALoadSurfacesBitSeven := by
  refine ⟨fun s t r hidle hactive hcur hload h hr => ?_, fun s a hpending hcur => ?_⟩
  · rw [execRRead_active hidle hactive] at h
    obtain rfl := Host.Outcome.next.inj h
    cases hlav : s.reader.lav with
    | true =>
      rw [readBit_promote hcur hlav] at hr ⊢
      exact establish_surfaces_bitSeven hcur hr
    | false =>
      obtain ⟨b, rest, hbyte⟩ := hload.resolve_left (by simp [hlav])
      rw [readBit_firstPull_byte hcur hlav hbyte] at hr ⊢
      exact establish_surfaces_bitSeven (by exact hcur) hr
  · rw [answerPull, hpending, lookAheadAnswered, surface_load (by simpa using hcur)]
    simp

/-- Settles O24: LAV's rule reads neither answer further, so both loads have one next state. -/
theorem lookAheadFailureIsSilent : Obligations.LookAheadFailureIsSilent := by
  intro s e rest hidle hactive hcur
  refine ⟨fun hlav => ?_, fun hlav b => ?_⟩
  · exact ⟨_, rReadPromotesTheLookAhead _ (.failed e) rest hidle hactive hcur hlav rfl,
      rReadPromotesTheLookAhead _ .exhausted rest hidle hactive hcur hlav rfl, rfl, rfl, rfl⟩
  · exact ⟨_, rReadLoadsThePulledByte _ b (.failed e) rest hidle hactive hcur hlav rfl,
      rReadLoadsThePulledByte _ b .exhausted rest hidle hactive hcur hlav rfl, rfl, rfl, rfl⟩

/-- Settles O25: R.READ makes the pulls of R168's table, and an illegal word no transaction. -/
theorem rReadPullCount : Obligations.RReadPullCount := by
  refine ⟨fun s t hidle h => ?_, fun s t w hillegal h => ?_⟩
  · obtain rfl := Host.Outcome.next.inj ((exec_ready .rRead (congrArg Option.isSome hidle)).symm.trans h)
    exact effect_rRead_pulls s
  · rw [(runWord_illegal_ports hillegal h).1]

end Sys2Proof.Machine

/-! # The end of a stream -/

namespace Sys2Proof.Machine

/-! ### Reading the final byte out -/

theorem runAll_rRead {s t : State} (rest : List Instr) (hidle : s.reader.pending = none)
    (hactive : s.reader.rstate = .active) (h : readBit s = t) (ht : t.reader.pending = none) :
    runAll (.rRead :: rest) s = runAll rest t :=
  runAll_cons (i := .rRead) rest (congrArg Option.isSome hidle) (h ▸ execRRead_active hidle hactive)
    (congrArg Option.isSome ht)

/-- The first n bits of CUR still to be surfaced are those at RCUR and below it (R162). -/
theorem unread_take {r : ReaderUnit} {n : Nat} (hn : n ≤ (r.rcur + 1).toNat) :
    r.unread.take n = (List.range n).map fun k => r.cur.getLsbD (r.rcur.toNat - k) := by
  refine List.ext_getElem? fun k => ?_
  by_cases hk : k < n
  · have hcur : r.rcur ≠ 7#3 := fun hc => by simp [hc] at hn; omega
    rw [toNat_add_one_of_ne_seven hcur] at hn
    have hlt := r.rcur.isLt
    rw [List.getElem?_take_of_lt hk, ReaderUnit.unread, toNat_add_one_of_ne_seven hcur, List.getElem?_drop,
      bitsOf_getElem? (by omega), List.getElem?_map, List.getElem?_range hk,
      show 7 - (8 - (r.rcur.toNat + 1) + k) = r.rcur.toNat - k by omega]
    rfl
  · simp [hk]

/-- R.READs surface the bits of the final byte down to bit TRASH, one after the other (R161, R162). -/
theorem runAll_reads_within (n : Nat) {s : State} (hidle : s.reader.pending = none)
    (hactive : s.reader.rstate = .active) (hn : n + s.reader.trash.toNat ≤ (s.reader.rcur + 1).toNat) :
    runAll (List.replicate n .rRead) s = .next
      { s with
        reader := { s.reader with rcur := s.reader.rcur - BitVec.ofNat 3 n }
        readerOut := s.readerOut ++ (s.reader.unread.take n).map fun x => .ok x 0 } := by
  induction n generalizing s with
  | zero => simp [runAll]
  | succ n ih =>
    have hcur : s.reader.rcur ≠ 7#3 := fun hc => by simp [hc] at hn
    have hdown : cursorDown s.reader.rcur + 1 = s.reader.rcur := BitVec.sub_add_cancel _ _
    have hpast : cursorDown s.reader.rcur - BitVec.ofNat 3 n = s.reader.rcur - BitVec.ofNat 3 (n + 1) := by
      rw [cursorDown]
      bv_omega
    rw [toNat_add_one_of_ne_seven hcur] at hn
    have hleft : n + s.reader.trash.toNat ≤ s.reader.rcur.toNat := by omega
    have hdata : s.reader.endOfData = false :=
      Bool.eq_false_iff.mpr fun he => by have := (endOfData_iff.mp he).2; omega
    rw [List.replicate_succ, runAll_rRead _ hidle hactive (readBit_surfaces hidle hcur hdata) hidle,
      ih (by exact hidle) (by exact hactive) (by simpa only [hdown] using hleft), hpast, unread_eq_cons hcur]
    simp

/-- Every R.READ on padding reports EXHAUSTED and writes no register, so the next one is on padding too (R166). -/
theorem runAll_reads_padding (n : Nat) {s : State} (hidle : s.reader.pending = none)
    (hactive : s.reader.rstate = .active) (hcur : s.reader.rcur ≠ 7#3) (hend : s.reader.endOfData = true) :
    runAll (List.replicate n .rRead) s = .next
      { s with readerOut := s.readerOut ++ List.replicate n Response.exhausted } := by
  induction n generalizing s with
  | zero => simp [runAll]
  | succ n ih =>
    rw [List.replicate_succ, runAll_rRead _ hidle hactive (readBit_padding hidle hcur hend) hidle,
      ih (by exact hidle) (by exact hactive) (by exact hcur) (by exact hend)]
    simp [List.replicate_succ]

/-- Past a byte's end, without a look-ahead byte, every R.READ pulls an exhausted source again (R167). -/
theorem runAll_reads_exhausted (n : Nat) {rest : List PullAnswer} {s : State} (hidle : s.reader.pending = none)
    (hactive : s.reader.rstate = .active) (hcur : s.reader.rcur = 7#3) (hlav : s.reader.lav = false)
    (hsource : s.source.answers = List.replicate n PullAnswer.exhausted ++ rest) :
    runAll (List.replicate n .rRead) s = .next
      { s with
        source := { answers := rest, pulls := s.source.pulls + n }
        readerOut := s.readerOut ++ List.replicate n Response.exhausted } := by
  induction n generalizing s with
  | zero =>
    obtain rfl : s.source.answers = rest := hsource
    simp [runAll]
  | succ n ih =>
    rw [List.replicate_succ, List.cons_append] at hsource
    rw [List.replicate_succ,
      runAll_rRead _ hidle hactive (readBit_firstPull_exhausted hidle hcur hlav hsource) hidle,
      ih (by exact hidle) (by exact hactive) (by exact hcur) (by exact hlav) rfl]
    simp [List.replicate_succ, Nat.add_assoc, Nat.add_comm 1]

/-- A count of RCUR + 1 - TRASH down from RCUR, the cursor has passed bit TRASH; below bit 0 it is at 7 (R162). -/
theorem rcur_past_trash :
    ∀ rcur trash : BitVec 3, trash.toNat ≤ rcur.toNat + 1 →
      rcur - BitVec.ofNat 3 (rcur.toNat + 1 - trash.toNat) = trash - 1 := by
  decide

/-- The final byte surfaces the bits from its cursor down to bit TRASH (R166, R167). -/
theorem runAll_reads_finalByte {s : State} (hidle : s.reader.pending = none) (hactive : s.reader.rstate = .active)
    (hcur : s.reader.rcur ≠ 7#3) (htrash : s.reader.trash.toNat ≤ s.reader.rcur.toNat + 1) :
    runAll (List.replicate (s.reader.rcur.toNat + 1 - s.reader.trash.toNat) .rRead) s = .next
      { s with
        reader := { s.reader with rcur := s.reader.trash - 1 }
        readerOut := s.readerOut ++
          (List.range (s.reader.rcur.toNat + 1 - s.reader.trash.toNat)).map fun k =>
            .ok (s.reader.cur.getLsbD (s.reader.rcur.toNat - k)) 0 } := by
  have hleft := toNat_add_one_of_ne_seven hcur
  rw [runAll_reads_within _ hidle hactive (by omega), unread_take (by omega), rcur_past_trash _ _ htrash,
    List.map_map]
  rfl

/-- With TRASH ≥ 1 the cursor that has passed bit TRASH is within the byte and on its padding (R161). -/
theorem padding_of_rcur_past_trash {r : ReaderUnit} (hlav : r.lav = false) (htrash : 1 ≤ r.trash.toNat)
    (hcur : r.rcur = r.trash - 1) : r.rcur ≠ 7#3 ∧ r.endOfData = true := by
  have hpred : r.rcur.toNat + 1 = r.trash.toNat := by
    rw [hcur]
    bv_omega
  have hlt := r.trash.isLt
  exact ⟨fun h => by simp [h] at hpred; omega, endOfData_iff.mpr ⟨hlav, by omega⟩⟩

/-- Settles O27: the final byte is read out to bit TRASH, and the cursor then stays on its padding. -/
theorem finalByteThenStickyExhaustion : Obligations.FinalByteThenStickyExhaustion := by
  intro s n hidle hactive hlav htrash hcur hlow
  refine ⟨_, runAll_reads_finalByte hidle hactive hcur (by omega), rfl, ?_⟩
  obtain ⟨hwithin, hend⟩ :=
    padding_of_rcur_past_trash (r := { s.reader with rcur := s.reader.trash - 1 }) hlav htrash rfl
  exact runAll_reads_padding n hidle hactive hwithin hend

/-- Settles O28: with TRASH = 0 no bit of the final byte is padding, and past its end each R.READ is a first pull. -/
theorem withoutTrashEveryReadPullsAgain : Obligations.WithoutTrashEveryReadPullsAgain := by
  refine ⟨fun s t hidle hactive hlav htrash hcur h => ?_, fun s hidle hactive hlav htrash => ?_⟩
  · obtain ⟨hwithin, hend⟩ := padding_of_rcur_past_trash hlav htrash hcur
    rw [execRRead_active hidle hactive, readBit_padding hidle hwithin hend] at h
    rw [← Host.Outcome.next.inj h]
  · refine ⟨fun hcur => ?_, fun n rest hcur => runAll_reads_exhausted n hidle hactive hcur hlav,
      fun e rest hcur => (rReadFirstPullOutcomes s rest hidle hactive hcur hlav).2 e, fun b a rest hcur hsource => ?_⟩
    · have h := runAll_reads_finalByte hidle hactive hcur (by simp [htrash])
      rw [htrash] at h
      exact h
    · exact ⟨_, rReadLoadsThePulledByte s b a rest hidle hactive hcur hlav hsource, rfl, rfl, rfl, rfl⟩

end Sys2Proof.Machine

/-! # The bits of a finite stream -/

namespace Sys2Proof.Machine

/-! ### What the source has been asked -/

/-- The source port after n further pulls: each has taken the next answer, if one stood ready (R77). -/
def SourcePort.after (n : Nat) (p : SourcePort) : SourcePort :=
  { answers := p.answers.drop n, pulls := p.pulls + n }

theorem SourcePort.after_after (m n : Nat) (p : SourcePort) : (p.after m).after n = p.after (m + n) := by
  simp [SourcePort.after, Nat.add_assoc]

theorem establish_source (b : Byte) (s : State) : (establish b s).source = s.source.after 1 := by
  rcases establish_cases b s with ⟨a, rest, hsource, h⟩ | ⟨hsource, h⟩ <;> rw [h]
  · rw [(surface_frame _).2.2.1, SourcePort.after, hsource]
    rfl
  · simp [SourcePort.after, hsource]

/-- R.READ changes the source port by its pulls only. -/
theorem readBit_source (s : State) : ∃ n, (readBit s).source = s.source.after n := by
  rcases readBit_cases s with ⟨_, h⟩ | ⟨_, _, h⟩ | ⟨_, _, hnone, h⟩ | ⟨_, _, a, rest, hsome, h⟩ <;> rw [h]
  · exact ⟨0, (surface_frame s).2.2.1⟩
  · exact ⟨1, establish_source _ s⟩
  · exact ⟨1, by simp [SourcePort.after, hnone]⟩
  · have hfirst : { answers := rest, pulls := s.source.pulls + 1 } = s.source.after 1 := by
      simp [SourcePort.after, hsome]
    cases a with
    | byte b => exact ⟨2, by rw [firstPullAnswered, establish_source, hfirst, SourcePort.after_after]⟩
    | exhausted | failed e => exact ⟨1, hfirst⟩

/-- R.READs that surface bits still to come change the source port by their pulls only. -/
theorem runAll_reads_source (shown tail : List Bool) {s : State} (h : Delivering (shown ++ tail) s)
    (htrash : s.reader.trash.toNat ≤ tail.length) :
    ∃ t n, runAll (List.replicate shown.length .rRead) s = .next t ∧ t.source = s.source.after n := by
  induction shown generalizing s with
  | nil => exact ⟨s, 0, rfl, rfl⟩
  | cons x shown ih =>
    obtain ⟨_, htrash', hnext⟩ := readBit_delivering h (by simp; omega)
    obtain ⟨t, n, hrun, ht⟩ := ih hnext (htrash' ▸ htrash)
    obtain ⟨m, hm⟩ := readBit_source s
    refine ⟨t, m + n, ?_, by rw [ht, hm, SourcePort.after_after]⟩
    exact (runAll_rRead _ h.idle h.active rfl hnext.idle).trans hrun

theorem flatMap_bitsOf_length (bytes : List Byte) : (bytes.flatMap bitsOf).length = 8 * bytes.length := by
  rw [List.length_flatMap]
  simp [bitsOf, Nat.mul_comm]

/-- Once a stream without trash bits has surfaced them all, its N + 1 pulls have taken its bytes and its first
Exhausted (R80). -/
theorem runAll_wholeStream_answers {bytes : List Byte} {ending : List PullAnswer} {s t : State} (hne : bytes ≠ [])
    (hidle : s.reader.pending = none) (hnew : s.reader.rstate ≠ .faulted)
    (hsource : s.source.answers = bytes.map .byte ++ .exhausted :: ending)
    (h : runAll (.rNew (0 : Nat) :: List.replicate (8 * bytes.length) .rRead) s = .next t) :
    t.source.answers = ending := by
  have hpos : 0 < bytes.length := List.length_pos_of_ne_nil hne
  obtain ⟨t', hpulled, hpulls⟩ := lookAheadPullCount 0 bytes.length (8 * bytes.length) bytes ending s
    (Nat.zero_le 7) hpos (Nat.le_refl _) (by omega) (Nat.le_refl _) hidle hnew hsource
  obtain rfl := Host.Outcome.next.inj (h.symm.trans hpulled)
  obtain ⟨u, hexec, _, htrash, hu⟩ := exec_rNew_delivering (Nat.zero_le 7) hidle hnew hsource
  have hsame : u.source = s.source := by
    rw [execRNew_ready _ hidle] at hexec
    rw [← Host.Outcome.next.inj hexec, newReader_source]
  obtain ⟨t', n, hrun, ht⟩ := runAll_reads_source (bytes.flatMap bitsOf) [] (by simpa using hu) (by omega)
  rw [flatMap_bitsOf_length,
    ← runAll_cons (i := .rNew (0 : Nat)) _ (congrArg Option.isSome hidle) hexec hu.ready] at hrun
  obtain rfl := Host.Outcome.next.inj (h.symm.trans hrun)
  rw [hsame] at ht
  have hn : n = bytes.length + 1 := by
    have : t.source.pulls = s.source.pulls + n := congrArg SourcePort.pulls ht
    omega
  rw [ht, SourcePort.after, hsource, hn]
  simp [List.drop_append]

/-! ### The bits, and then EXHAUSTED -/

/-- A sequence that has left the reader ready goes on from there. -/
theorem runAll_append {first : List Instr} (rest : List Instr) {s t : State}
    (hport : ∀ i ∈ first, i.port = .reader) (h : runAll first s = .next t) (ht : busy .reader t = false) :
    runAll (first ++ rest) s = runAll rest t := by
  induction first generalizing s with
  | nil => rw [← Host.Outcome.next.inj h, List.nil_append]
  | cons i first ih =>
    have hi : i.port = .reader := hport i (by simp)
    simp only [runAll, List.cons_append, hi] at h ⊢
    cases hready : awaitPort .reader s with
    | fault f => cases f
    | refused r => simp [hready, andThen] at h
    | next ready =>
      rw [hready, andThen_next] at h
      rw [andThen_next]
      cases hdone : perform i ready with
      | fault f => cases f
      | refused r => simp [hdone, andThen] at h
      | next u =>
        rw [hdone, andThen_next] at h
        rw [andThen_next]
        split at h
        · next hbusy =>
          obtain rfl := Host.Outcome.next.inj h
          rw [ht] at hbusy
          cases hbusy
        · next hidle =>
          rw [if_neg hidle]
          exact ih (fun j hj => hport j (by simp [hj])) h

theorem unread_length (r : ReaderUnit) : r.unread.length = (r.rcur + 1).toNat := by
  have hlen : (bitsOf r.cur).length = 8 := rfl
  have hlt := (r.rcur + 1).isLt
  rw [ReaderUnit.unread, List.length_drop, hlen]
  omega

/-- When fewer than eight bits are still to come, they are in CUR (R37). -/
theorem Delivering.finalByte {bits : List Bool} {s : State} (h : Delivering bits s) (hlen : bits.length ≤ 7) :
    s.reader.lav = false ∧ bits.length = (s.reader.rcur + 1).toNat := by
  obtain ⟨_, _, bytes, rfl, _⟩ := h
  simp only [List.length_append, unread_length, flatMap_bitsOf_length] at hlen ⊢
  cases hlav : s.reader.lav with
  | true =>
    rw [ReaderUnit.lookAheadBits, if_pos hlav, show (bitsOf s.reader.la).length = 8 from rfl] at hlen
    omega
  | false =>
    have hnone : s.reader.lookAheadBits.length = 0 := by simp [ReaderUnit.lookAheadBits, hlav]
    exact ⟨rfl, by omega⟩

/-- With only the trash bits still to come every R.READ reports EXHAUSTED: on padding, or, without trash bits,
from a source that stays exhausted (R166, R167). -/
theorem runAll_reads_pastEnd (n : Nat) {bits : List Bool} {s : State} (h : Delivering bits s)
    (hlen : bits.length = s.reader.trash.toNat)
    (hsource : bits = [] → ∃ rest, s.source.answers = List.replicate n PullAnswer.exhausted ++ rest) :
    ∃ t, runAll (List.replicate n .rRead) s = .next t ∧
      t.readerOut = s.readerOut ++ List.replicate n Response.exhausted := by
  have hlt := s.reader.trash.isLt
  obtain ⟨hlav, hleft⟩ := h.finalByte (by omega)
  by_cases hcur : s.reader.rcur = 7#3
  · obtain ⟨rest, hanswers⟩ := hsource (List.length_eq_zero_iff.mp (by simp [hleft, hcur]))
    exact ⟨_, runAll_reads_exhausted n h.idle h.active hcur hlav hanswers, rfl⟩
  · have hpast := toNat_add_one_of_ne_seven hcur
    exact ⟨_, runAll_reads_padding n h.idle h.active hcur (endOfData_iff.mpr ⟨hlav, by omega⟩), rfl⟩

/-- R.NEW and the R.READs up to the trash bits deliver the stream's first bits, in order (R169). -/
theorem runAll_stream_delivering {τ k : Nat} {bytes : List Byte} {ending : List PullAnswer} {s : State}
    (hτ : τ ≤ 7) (hk : k + τ ≤ 8 * bytes.length) (hidle : s.reader.pending = none)
    (hnew : s.reader.rstate ≠ .faulted) (hsource : s.source.answers = bytes.map .byte ++ .exhausted :: ending) :
    ∃ t, runAll (.rNew τ :: List.replicate k .rRead) s = .next t ∧
      t.readerOut = s.readerOut ++ [.ok false 0] ++ ((streamBits bytes τ).take k).map (fun b => Response.ok b 0) ∧
      t.reader.trash.toNat = τ ∧ Delivering ((bytes.flatMap bitsOf).drop k) t := by
  have hlen := flatMap_bitsOf_length bytes
  obtain ⟨u, hexec, hout, htrash, hu⟩ := exec_rNew_delivering hτ hidle hnew hsource
  rw [← List.take_append_drop k (bytes.flatMap bitsOf)] at hu
  obtain ⟨t, hrun, houts, htrash', ht⟩ := runAll_reads_delivering _ _ hu (by rw [List.length_drop]; omega)
  rw [List.length_take, Nat.min_eq_left (by omega)] at hrun
  refine ⟨t, ?_, ?_, by rw [htrash', htrash], ht⟩
  · rw [← hrun]
    exact runAll_cons (i := .rNew τ) _ (congrArg Option.isSome hidle) hexec hu.ready
  · rw [houts, hout, streamBits, List.take_take, Nat.min_eq_left (by omega)]

theorem streamBits_length (bytes : List Byte) (τ : Nat) : (streamBits bytes τ).length = 8 * bytes.length - τ := by
  rw [streamBits, List.length_take, flatMap_bitsOf_length]
  omega

/-- The R.READs beyond the stream's bits report EXHAUSTED (R169). -/
theorem runAll_stream_pastEnd {τ extra : Nat} {bytes : List Byte} {rest : List PullAnswer} {s : State} (hτ : τ ≤ 7)
    (hne : bytes ≠ []) (hidle : s.reader.pending = none) (hnew : s.reader.rstate ≠ .faulted)
    (hsource : s.source.answers =
      bytes.map .byte ++ .exhausted :: (List.replicate extra PullAnswer.exhausted ++ rest)) :
    ∃ t, runAll (.rNew τ :: List.replicate (8 * bytes.length - τ + extra) .rRead) s = .next t ∧
      t.readerOut = s.readerOut ++ [.ok false 0] ++ (streamBits bytes τ).map (fun b => Response.ok b 0) ++
        List.replicate extra Response.exhausted := by
  have hpos : 0 < bytes.length := List.length_pos_of_ne_nil hne
  have hlen := flatMap_bitsOf_length bytes
  obtain ⟨u, hrun, hout, htrash, hu⟩ :=
    runAll_stream_delivering (k := 8 * bytes.length - τ) hτ (by omega) hidle hnew hsource
  obtain ⟨t, hmore, hend⟩ := runAll_reads_pastEnd extra hu (by rw [List.length_drop]; omega) fun hnone => by
    have hzero : τ = 0 := by
      have := List.drop_eq_nil_iff.mp hnone
      omega
    subst hzero
    exact ⟨rest, runAll_wholeStream_answers hne hidle hnew hsource hrun⟩
  refine ⟨t, ?_, ?_⟩
  · rw [List.replicate_add, ← List.cons_append, runAll_append _ (fun i hi => ?_) hrun hu.ready, hmore]
    rcases List.mem_cons.mp hi with rfl | hread
    · rfl
    · rw [List.eq_of_mem_replicate hread]
      rfl
  · rw [hend, hout, List.take_of_length_le (streamBits_length bytes τ).le]

/-- A stream without bytes gives EXHAUSTED from the first R.READ on (R169). -/
theorem runAll_empty_stream {τ k : Nat} {rest : List PullAnswer} {s : State} (hτ : τ ≤ 7)
    (hidle : s.reader.pending = none) (hnew : s.reader.rstate ≠ .faulted)
    (hsource : s.source.answers = List.replicate k PullAnswer.exhausted ++ rest) :
    ∃ t, runAll (.rNew τ :: List.replicate k .rRead) s = .next t ∧
      t.readerOut = s.readerOut ++ [.ok false 0] ++ List.replicate k Response.exhausted := by
  set u := complete .reader .done { s with reader := ReaderUnit.constructed (BitVec.ofNat 3 τ) }
  have hreads := runAll_reads_exhausted k (s := u) rfl rfl rfl rfl hsource
  exact ⟨_, (runAll_cons (i := .rNew τ) _ (congrArg Option.isSome hidle) (exec_rNew_constructs hτ hidle hnew)
    rfl).trans hreads, rfl⟩

/-- Settles O29: R.READs take the bits to come until only the trash bits are left, and then find the end. -/
theorem finiteStreamBitSequence : Obligations.FiniteStreamBitSequence := by
  intro τ k bytes rest s hτ hidle hnew hsource
  rw [streamBits_length]
  rcases eq_or_ne bytes [] with rfl | hne
  · rw [List.map_nil, List.nil_append, List.replicate_succ', List.append_assoc] at hsource
    obtain ⟨t, hrun, hout⟩ := runAll_empty_stream hτ hidle hnew hsource
    exact ⟨t, hrun, by simpa [streamBits] using hout⟩
  · rw [List.replicate_succ, List.append_assoc, List.cons_append] at hsource
    rcases le_total k (8 * bytes.length - τ) with hk | hk
    · have hbytes : 0 < bytes.length := List.length_pos_of_ne_nil hne
      obtain ⟨t, hrun, hout, _⟩ := runAll_stream_delivering (k := k) hτ (by omega) hidle hnew hsource
      exact ⟨t, hrun, by rw [hout, Nat.sub_eq_zero_of_le hk, List.replicate_zero, List.append_nil]⟩
    · obtain ⟨extra, rfl⟩ := Nat.exists_eq_add_of_le hk
      rw [Nat.add_comm _ extra, List.replicate_add, List.append_assoc] at hsource
      obtain ⟨t, hrun, hout⟩ := runAll_stream_pastEnd hτ hne hidle hnew hsource
      refine ⟨t, hrun, ?_⟩
      rw [hout, List.take_of_length_le ((streamBits_length bytes τ).le.trans hk), Nat.add_sub_cancel_left]

end Sys2Proof.Machine

/-! # The writer unit's commands -/

namespace Sys2Proof.Machine

/-! ### Construction, refusal and W.COUNT -/

/-- On an idle writer a response is all that the end of a command adds (R12). -/
theorem complete_writer_idle (r : Response) {s : State} (hidle : s.writer.pending = none) :
    complete .writer r s = { s with writerOut := s.writerOut ++ [r] } := by
  rw [complete, ← hidle]

/-- A writer command to an UNCONSTRUCTED writer is answered NO_INSTANCE (R202). -/
theorem onWriter_unconstructed (run : State → State) {s : State} (hnew : s.writer.wstate = .unconstructed) :
    onWriter run s = complete .writer .noInstance s := by
  simp [onWriter, writerRefusal, hnew]

/-- Settles O35: the construction does not depend on the registers it overwrites. -/
theorem wNewConstructs : Obligations.WNewConstructs := by
  refine ⟨by decide, fun s hidle => ?_⟩
  rw [execWNew_ready hidle]
  rfl

/-- Settles O36: the lifecycle check answers, and on an idle writer its answer is all that changes. -/
theorem writerRefusedUnlessConstructed : Obligations.WriterRefusedUnlessConstructed := by
  intro s i hidle hnew hport hne
  have hready : busy i.port s = false := by rw [hport, busy_writer_eq, hidle, Option.isSome_none]
  rw [exec_ready i hready, ← complete_writer_idle .noInstance hidle]
  cases i with
  | rNew _ | rRead => cases hport
  | wNew => exact absurd rfl hne
  | wWrite _ | wFlush | wCount => exact congrArg _ (onWriter_unconstructed _ hnew)

/-- On an ACTIVE idle writer W.COUNT only answers (R231). -/
theorem exec_wCount {s : State} (hidle : s.writer.pending = none) (hactive : s.writer.wstate = .active) :
    exec .wCount s = .next { s with writerOut := s.writerOut ++ [.ok false s.writer.count] } := by
  rw [execWCount_active hidle hactive, complete_writer_idle _ hidle]

/-- Settles O46: W.COUNT only answers, with COUNT where there is a writer. -/
theorem wCountReturnsCount : Obligations.WCountReturnsCount :=
  ⟨by decide, fun s hidle =>
    ⟨fun hnew => writerRefusedUnlessConstructed s .wCount hidle hnew rfl (by simp), exec_wCount hidle⟩⟩

/-! ### A push that is answered, and one that waits -/

/-- With an answer ready, a push ends its command with the answer's response (R211, R221, R252). -/
theorem push_ends (b : Byte) {s : State} {a : PushAnswer} {rest : List PushAnswer}
    (hidle : s.writer.pending = none) (hsink : s.sink.answers = a :: rest) :
    push b s =
      { s with
        sink := { answers := rest, pushed := s.sink.pushed ++ [b] }
        writerOut := s.writerOut ++ [a.response] } := by
  have hend : push b s =
      complete .writer a.response { s with sink := { answers := rest, pushed := s.sink.pushed ++ [b] } } := by
    rw [push_answered b hsink]
    cases a <;> rfl
  rw [hend]
  exact complete_writer_idle _ hidle

/-- With none ready, the byte is handed over and the command waits (R75). -/
theorem push_waits (b : Byte) {s : State} (hsink : s.sink.answers = []) :
    push b s =
      { s with
        sink := { answers := [], pushed := s.sink.pushed ++ [b] }
        writer := { s.writer with pending := some b } } := by
  rw [push_unanswered b hsink, ← hsink]

/-! ### W.WRITE -/

theorem filled_eq (v : Int) (w : WriterUnit) :
    w.filled v = if v = 0 then w.scr else w.scr ||| (1#8 <<< w.wcur.toNat) := by
  by_cases hv : v = 0 <;> simp [WriterUnit.filled, operandBit, setBit, hv]

theorem countUp_eq_ofNat (c : Count) : countUp c = BitVec.ofNat 64 ((c.toNat + 1) % 2 ^ 64) :=
  BitVec.eq_of_toNat_eq (by simp [countUp, Config.countWidth])

section
variable (v : Int) {s : State}

/-- Past the checks, a bit within a byte is placed and counted, and the cursor goes down (R211). -/
theorem acceptBit_within (hunsealed : s.writer.sealed = false) (hcur : s.writer.wcur ≠ 0#3) :
    acceptBit v s =
      complete .writer .done
        { s with
          writer :=
            { s.writer with
              count := countUp s.writer.count
              scr := s.writer.filled v
              wcur := cursorDown s.writer.wcur } } := by
  rw [acceptBit, if_neg (by simp [hunsealed]), if_neg (by simp [WriterUnit.lastBit, hcur])]

/-- Past the checks, the bit that completes a byte is counted, and the byte pushed from a fresh SCR (R211, R212). -/
theorem acceptBit_completes (hunsealed : s.writer.sealed = false) (hcur : s.writer.wcur = 0#3) :
    acceptBit v s =
      push (s.writer.filled v)
        { s with writer := { s.writer with count := countUp s.writer.count, scr := 0x00#8, wcur := 7#3 } } := by
  rw [acceptBit, if_neg (by simp [hunsealed]), if_pos (by simp [WriterUnit.lastBit, hcur])]

end

/-- Settles O38: a bit within a byte is placed and counted, and on an idle writer the OK is all else. -/
theorem wWriteWithinAByte : Obligations.WWriteWithinAByte := by
  intro s v hidle hactive hunsealed hcur
  rw [execWWrite_active v hidle hactive, acceptBit_within v hunsealed hcur, complete_writer_idle _ (by exact hidle),
    filled_eq, countUp_eq_ofNat]
  rfl

/-- Settles O39: the registers are written before the push, so each of its outcomes finds them so. -/
theorem wWriteCompletesAByte : Obligations.WWriteCompletesAByte := by
  intro s v hidle hactive hunsealed hcur byte after
  have hpush : exec (.wWrite v) s = .next (push byte { s with writer := after }) := by
    rw [execWWrite_active v hidle hactive, acceptBit_completes v hunsealed hcur, filled_eq, countUp_eq_ofNat, hcur]
    rfl
  rw [hpush]
  exact ⟨fun rest hsink => congrArg _ (push_ends byte (s := { s with writer := after }) hidle hsink),
    fun e rest hsink => congrArg _ (push_ends byte (s := { s with writer := after }) hidle hsink),
    fun hsink => congrArg _ (push_waits byte (s := { s with writer := after }) hsink)⟩

/-- Settles O40: a 0 and a 1 within a byte differ in SCR only, whose bit at WCUR the invariant keeps 0. -/
theorem zeroBitWritesNothing : Obligations.ZeroBitWritesNothing := by
  intro s t u hinv hidle hactive hunsealed hcur ht hu
  rw [execWWrite_active _ hidle hactive, acceptBit_within _ hunsealed hcur, Host.Outcome.next.injEq] at ht hu
  obtain ⟨hscr, _⟩ := hinv.2 hactive
  subst ht hu
  exact ⟨(filled_eq 0 s.writer).trans (if_pos rfl), hscr _ le_rfl, rfl, rfl, rfl, rfl⟩

/-! ### W.FLUSH -/

/-- Settles O43: at a byte boundary W.FLUSH only answers. -/
theorem wFlushAtBoundaryDoesNothing : Obligations.WFlushAtBoundaryDoesNothing := by
  intro s hidle hactive hcur
  rw [execWFlush_active hidle hactive, flushPartial, if_pos (by simp [WriterUnit.atBoundary, hcur]),
    complete_writer_idle _ hidle]
  rfl

/-- With a partial byte W.FLUSH seals the writer and pushes SCR as it stands (R221, R223). -/
theorem exec_wFlush_partial {s : State} (hidle : s.writer.pending = none) (hactive : s.writer.wstate = .active)
    (hcur : s.writer.wcur ≠ 7#3) :
    exec .wFlush s = .next (push s.writer.scr { s with writer := { s.writer with sealed := true } }) := by
  rw [execWFlush_active hidle hactive, flushPartial, if_neg (by simp [WriterUnit.atBoundary, hcur])]

/-- Settles O42: the seal is set before the push, so each of its outcomes finds it so. -/
theorem wFlushPushesThePartialByte : Obligations.WFlushPushesThePartialByte := by
  intro s hidle hactive hcur
  rw [exec_wFlush_partial hidle hactive hcur]
  set u : State := { s with writer := { s.writer with sealed := true } }
  exact ⟨fun rest hsink => congrArg _ (push_ends s.writer.scr (s := u) hidle hsink),
    fun e rest hsink => congrArg _ (push_ends s.writer.scr (s := u) hidle hsink),
    fun hsink => congrArg _ (push_waits s.writer.scr (s := u) hsink)⟩

/-- A W.FLUSH of a sealed writer pushes SCR and answers as the sink does, and writes no register (R223). -/
theorem exec_wFlush_sealed {s : State} {a : PushAnswer} {rest : List PushAnswer} (hidle : s.writer.pending = none)
    (hactive : s.writer.wstate = .active) (hcur : s.writer.wcur ≠ 7#3) (hsealed : s.writer.sealed = true)
    (hsink : s.sink.answers = a :: rest) :
    exec .wFlush s = .next
      { s with
        sink := { answers := rest, pushed := s.sink.pushed ++ [s.writer.scr] }
        writerOut := s.writerOut ++ [a.response] } := by
  rw [exec_wFlush_partial hidle hactive hcur, ← hsealed, push_ends _ hidle hsink]

/-- W.FLUSHes of a sealed writer push SCR once each (R223). -/
theorem runAll_wFlush_sealed (now : List PushAnswer) {rest : List PushAnswer} {s : State}
    (hidle : s.writer.pending = none) (hactive : s.writer.wstate = .active) (hcur : s.writer.wcur ≠ 7#3)
    (hsealed : s.writer.sealed = true) (hsink : s.sink.answers = now ++ rest) :
    runAll (List.replicate now.length .wFlush) s = .next
      { s with
        sink := { answers := rest, pushed := s.sink.pushed ++ List.replicate now.length s.writer.scr }
        writerOut := s.writerOut ++ now.map PushAnswer.response } := by
  have hready : s.writer.pending.isSome = false := congrArg Option.isSome hidle
  induction now generalizing s with
  | nil => simp [runAll, ← show s.sink.answers = rest from hsink]
  | cons a now ih =>
    have hexec := exec_wFlush_sealed hidle hactive hcur hsealed hsink
    rw [List.length_cons, List.replicate_succ, runAll_cons (i := .wFlush) _ hready hexec hready]
    refine Eq.trans (ih hidle hactive hcur hsealed rfl hready) ?_
    simp [List.replicate_succ]

/-- Settles O44: each W.FLUSH of the sealed writer makes the next push. -/
theorem repeatedFlushPushesAgain : Obligations.RepeatedFlushPushesAgain := by
  intro s now rest hidle hactive hcur hsealed hsink
  have hresponse : PushAnswer.response =
      fun a => match a with | .ok => .ok false 0 | .failed e => .ioError e := by
    funext a
    cases a <;> rfl
  have hrun := runAll_wFlush_sealed now hidle hactive hcur hsealed hsink
  rw [hresponse] at hrun
  exact hrun

/-- Settles O45: the byte pushed is SCR, whose bits at WCUR and below are 0, and WCUR is 7 - COUNT mod 8. -/
theorem flushPaddingLength : Obligations.FlushPaddingLength := by
  intro s t hinv hidle hactive hcur h
  rw [exec_wFlush_partial hidle hactive hcur, Host.Outcome.next.injEq] at h
  obtain ⟨hscr, hcount, _⟩ := hinv.2 hactive
  have hlt : s.writer.wcur.toNat < 7 := by
    have hne : s.writer.wcur.toNat ≠ 7 := fun h7 => hcur (BitVec.eq_of_toNat_eq h7)
    omega
  have hpadding : s.writer.wcur.toNat + 1 = 8 - s.writer.count.toNat % 8 := by omega
  refine ⟨s.writer.scr, h ▸ push_pushed _ _, hpadding, ?_⟩
  rw [← hpadding]
  exact ⟨by omega, by omega, fun j hj => hscr j (by omega)⟩

end Sys2Proof.Machine

/-! # The bytes of the accepted bits -/

namespace Sys2Proof.Machine

/-! ### Whole bytes, and the bits left over -/

/-- The last bits of a sequence that fill no whole byte (R214). -/
def leftover (bits : List Bool) : List Bool := bits.drop (8 * (bits.length / 8))

theorem leftover_length (bits : List Bool) : (leftover bits).length = bits.length % 8 := by
  rw [leftover, List.length_drop]
  omega

theorem leftover_of_eight {first : List Bool} (rest : List Bool) (h : first.length = 8) :
    leftover (first ++ rest) = leftover rest := by
  rw [leftover, List.length_append,
    show 8 * ((first.length + rest.length) / 8) = first.length + 8 * (rest.length / 8) by omega,
    List.drop_length_add_append, leftover]

/-- Further bits go behind those left over. -/
theorem wholeBytes_append (bits more : List Bool) :
    wholeBytes (bits ++ more) = wholeBytes bits ++ wholeBytes (leftover bits ++ more) := by
  generalize hn : bits.length / 8 = n
  induction n generalizing bits with
  | zero =>
    rw [wholeBytes_of_short (bits := bits) (by omega), leftover, hn, Nat.mul_zero, List.drop_zero, List.nil_append]
  | succ n ih =>
    obtain ⟨first, rest, rfl, hfirst⟩ : ∃ first rest, bits = first ++ rest ∧ first.length = 8 :=
      ⟨bits.take 8, bits.drop 8, (List.take_append_drop 8 bits).symm, by simp; omega⟩
    rw [List.length_append] at hn
    rw [List.append_assoc, wholeBytes_of_eight _ hfirst, wholeBytes_of_eight _ hfirst, leftover_of_eight rest hfirst,
      ih rest (by omega), List.cons_append]

/-- A bit that completes no byte is left over with the others. -/
theorem packing_snoc_within (c : Bool) {bits : List Bool} (hlen : (leftover bits).length < 7) :
    leftover (bits ++ [c]) = leftover bits ++ [c] ∧ wholeBytes (bits ++ [c]) = wholeBytes bits := by
  have hmod := leftover_length bits
  constructor
  · rw [leftover, leftover, List.length_append, List.length_singleton,
      show (bits.length + 1) / 8 = bits.length / 8 by omega, List.drop_append_of_le_length (by omega)]
  · rw [wholeBytes_append, wholeBytes_of_short (bits := leftover bits ++ [c]) (by simp; omega), List.append_nil]

/-- A bit that completes a byte leaves none over. -/
theorem packing_snoc_completes (c : Bool) {bits : List Bool} (hlen : (leftover bits).length = 7) :
    leftover (bits ++ [c]) = [] ∧
      wholeBytes (bits ++ [c]) = wholeBytes bits ++ [placeBits 7 (leftover bits ++ [c])] := by
  have hmod := leftover_length bits
  constructor
  · exact List.length_eq_zero_iff.mp (by rw [leftover_length]; simp; omega)
  · rw [wholeBytes_append, ← List.append_nil (leftover bits ++ [c]), wholeBytes_of_eight [] (by simp [hlen]),
      List.append_nil]
    rfl

/-! ### What a constructed writer has made of the bits it accepted -/

/-- Since its construction, when the sink stood as given, the writer has accepted the bits, pushed their whole bytes
and counted them; the bits left over stand in its partial byte (R49, R50, R214, R232). -/
structure Packed (sink : SinkPort) (bits : List Bool) (s : State) : Prop where
  filling : Filling (leftover bits) s.writer
  counted : s.writer.count.toNat = bits.length % 2 ^ Config.countWidth
  sink_eq : s.sink =
    { answers := sink.answers.drop (bits.length / 8), pushed := sink.pushed ++ wholeBytes bits }

/-- A command's bits come before those of the commands behind it. -/
theorem writtenBits_cons (i : Instr) (rest : List Instr) :
    writtenBits (i :: rest) = writtenBits [i] ++ writtenBits rest :=
  List.filterMap_append (l := [i]) (l' := rest) ..

theorem toNat_countUp_of_counted {c : Count} {n : Nat} (h : c.toNat = n % 2 ^ Config.countWidth) :
    (countUp c).toNat = (n + 1) % 2 ^ Config.countWidth := by
  rw [countUp, BitVec.toNat_add, h]
  simp

/-- W.NEW starts with no bits (R201). -/
theorem constructed_packed (s : State) :
    Packed s.sink [] (complete .writer .done { s with writer := WriterUnit.constructed }) :=
  ⟨constructed_filling, rfl, by simp [wholeBytes]⟩

section
variable {sink : SinkPort} {bits : List Bool} {s : State} (h : Packed sink bits s)
include h

/-- W.WRITE packs its bit, whatever the answer to a push (R211). -/
theorem exec_wWrite_packed (v : Int) (hanswers : (bits.length + 1) / 8 ≤ sink.answers.length) :
    ∃ t, exec (.wWrite v) s = .next t ∧ Packed sink (bits ++ [operandBit v]) t := by
  obtain ⟨hfill, hcounted, hsink⟩ := h
  have hmod := leftover_length bits
  by_cases hlen : (leftover bits).length = 7
  · obtain ⟨hleft, hbytes⟩ := packing_snoc_completes (operandBit v) hlen
    have hnext : s.sink.answers = sink.answers[bits.length / 8] :: sink.answers.drop (bits.length / 8 + 1) := by
      rw [hsink, List.drop_eq_getElem_cons (by omega)]
    obtain ⟨t, hexec, hsinkt, hcountt, hfillt⟩ := exec_wWrite_completes v hfill hlen hnext
    refine ⟨t, hexec, by rwa [hleft], ?_, ?_⟩
    · rw [hcountt, toNat_countUp_of_counted hcounted, List.length_append, List.length_singleton]
    · rw [hsinkt, hsink, hbytes, List.append_assoc, List.length_append, List.length_singleton,
        show (bits.length + 1) / 8 = bits.length / 8 + 1 by omega]
  · have hshort : (leftover bits).length < 7 := by omega
    obtain ⟨hleft, hbytes⟩ := packing_snoc_within (operandBit v) hshort
    obtain ⟨t, hexec, hsinkt, hcountt, hfillt⟩ := exec_wWrite_within v hfill hshort
    refine ⟨t, hexec, by rwa [hleft], ?_, ?_⟩
    · rw [hcountt, toNat_countUp_of_counted hcounted, List.length_append, List.length_singleton]
    · rw [hsinkt, hsink, hbytes, List.length_append, List.length_singleton,
        show (bits.length + 1) / 8 = bits.length / 8 by omega]

/-- Every command but W.NEW packs the bits it writes, a W.FLUSH standing at a byte boundary (R211, R222, R231). -/
theorem exec_packed {i : Instr} (hport : i.port = .writer) (hne : i ≠ .wNew)
    (hflush : i = .wFlush → bits.length % 8 = 0)
    (hanswers : (bits ++ writtenBits [i]).length / 8 ≤ sink.answers.length) :
    ∃ t, exec i s = .next t ∧ Packed sink (bits ++ writtenBits [i]) t := by
  have ⟨hfill, hcounted, hsink⟩ := h
  cases i with
  | rNew _ | rRead => cases hport
  | wNew => exact absurd rfl hne
  | wWrite v => exact exec_wWrite_packed h v (by rwa [List.length_append] at hanswers)
  | wFlush =>
    have hnone : leftover bits = [] := List.length_eq_zero_iff.mp ((leftover_length bits).trans (hflush rfl))
    refine ⟨_, wFlushAtBoundaryDoesNothing s hfill.idle hfill.active (Filling.wcur_nil (hnone ▸ hfill)), ?_⟩
    rw [show writtenBits [.wFlush] = [] from rfl, List.append_nil]
    exact ⟨hfill, hcounted, hsink⟩
  | wCount =>
    refine ⟨_, exec_wCount hfill.idle hfill.active, ?_⟩
    rw [show writtenBits [.wCount] = [] from rfl, List.append_nil]
    exact ⟨hfill, hcounted, hsink⟩

end

/-- A sequence of such commands packs the bits it writes (R214). -/
theorem runAll_packed (commands : List Instr) {sink : SinkPort} {bits : List Bool} {s : State}
    (h : Packed sink bits s) (hcommands : ∀ i ∈ commands, i.port = .writer ∧ i ≠ .wNew)
    (hflush : ∀ before after, commands = before ++ .wFlush :: after → (bits ++ writtenBits before).length % 8 = 0)
    (hanswers : (bits ++ writtenBits commands).length / 8 ≤ sink.answers.length) :
    ∃ t, runAll commands s = .next t ∧ Packed sink (bits ++ writtenBits commands) t := by
  induction commands generalizing bits s with
  | nil => exact ⟨s, rfl, by rwa [show writtenBits [] = [] from rfl, List.append_nil]⟩
  | cons i rest ih =>
    obtain ⟨hport, hne⟩ := hcommands i (by simp)
    rw [writtenBits_cons, ← List.append_assoc] at hanswers ⊢
    have hhere : (bits ++ writtenBits [i]).length / 8 ≤ sink.answers.length :=
      (Nat.div_le_div_right (by simp)).trans hanswers
    have hboundary : i = .wFlush → bits.length % 8 = 0 := by
      rintro rfl
      simpa [writtenBits] using hflush [] rest rfl
    obtain ⟨u, hexec, hu⟩ := exec_packed h hport hne hboundary hhere
    obtain ⟨t, hrun, ht⟩ := ih hu (fun j hj => hcommands j (by simp [hj]))
      (fun before after hsplit => by
        rw [List.append_assoc, ← writtenBits_cons]
        exact hflush (i :: before) after (by rw [hsplit, List.cons_append])) hanswers
    exact ⟨t, (runAll_cons rest (hport ▸ h.filling.ready) hexec (hport ▸ hu.filling.ready)).trans hrun, ht⟩

/-- Settles O50: W.NEW starts with no bits packed, and the commands after it pack the bits they write. -/
theorem writtenBitsArePushedAsBytes : Obligations.WrittenBitsArePushedAsBytes := by
  intro commands now rest s hcommands hflush hidle hsink hnow
  obtain ⟨t, hrun, ht⟩ := runAll_packed commands (constructed_packed s) hcommands
    (by simpa using hflush) (by simp [hsink, ← hnow])
  rw [List.nil_append] at ht
  refine ⟨t, ?_, ?_, ht.counted⟩
  · rw [← hrun]
    exact runAll_cons (i := .wNew) _ (congrArg Option.isSome hidle) (execWNew_ready hidle) rfl
  · rw [ht.sink_eq, hsink, ← hnow, List.drop_left]

end Sys2Proof.Machine

/-! # Exceptions: the responses other than OK -/

namespace Sys2Proof.Machine

/-! ### Refusals -/

/-- Settles O31: both reader commands answer a FAULTED reader with the one refusal. -/
theorem faultedReaderRefusesAll : Obligations.FaultedReaderRefusesAll := by
  intro s i hidle hfaulted hport
  cases i with
  | rNew t => exact (rNewConstructsOrFaults.2 t s hidle).1 hfaulted
  | rRead => exact (rReadRefusedUnlessActive s hidle).2 hfaulted
  | wNew | wWrite _ | wFlush | wCount => cases hport

theorem acceptBit_sealed (v : Int) {s : State} (hsealed : s.writer.sealed = true) :
    acceptBit v s = complete .writer .misuse s := by
  rw [acceptBit, if_pos hsealed]

/-- Settles O37: the seal is checked first, and on an idle writer the answer is all that changes. -/
theorem sealedWriteIsMisuse : Obligations.SealedWriteIsMisuse := by
  refine ⟨fun s v hidle hactive hsealed => ?_, rfl⟩
  rw [execWWrite_active v hidle hactive, acceptBit_sealed v hsealed, complete_writer_idle _ hidle]

/-! ### Illegal words -/

/-- The port answers an illegal word ILLEGAL_COMMAND, or is busy and does not accept it (R116, R300). -/
theorem runWord_illegal {p : Port} {w : Word} (s : State) (hillegal : legalOn p w = false) :
    runWord p w s = .next (accept p s (complete p .illegalCommand)) := by
  unfold runWord
  cases hd : decode p w with
  | ok i => simp [legalOn_of_decode hd] at hillegal
  | error _ => rfl

/-- Settles O9: the step takes the word, and on a ready port its response is all that completing adds. -/
theorem illegalWordOnlyAnswers : Obligations.IllegalWordOnlyAnswers := by
  refine ⟨fun s p w rest hinputs hready hillegal => ?_, rfl⟩
  rw [step_of_head hinputs (by simp [takes, hready]), deliver, runWord_illegal _ hillegal,
    accept_ready _ (by rw [busy_inputs, hready])]
  cases p with
  | reader => exact congrArg _ (complete_reader_idle _ (by simpa using hready))
  | writer => exact congrArg _ (complete_writer_idle _ (by simpa using hready))

theorem illegal_answersOnly {p : Port} {w : Word} {s t : State} (hillegal : legalOn p w = false)
    (h : runWord p w s = .next t) : AnswersOnly (·.status = .illegalCommand) p s t := by
  rw [runWord_illegal s hillegal, Host.Outcome.next.injEq] at h
  subst h
  rcases accept_cases p s (complete p .illegalCommand) with ⟨_, ha⟩ | ⟨_, ha⟩ <;> rw [ha]
  · exact answersOnly_of_silent rfl
  · exact complete_answersOnly rfl rfl

/-! ### Every check mark of R257 is reached

Each from power-on reset, or from it with a unit's registers as a short run leaves them. -/

/-- Some run of the command ends with the status. -/
def Reached (i : Instr) (st : Status) : Prop :=
  ∃ s t r, exec i s = .next t ∧ responses i.port t = responses i.port s ++ [r] ∧ r.status = st

/-- The reader that R.NEW 0 constructs (R151), with the source's answers. -/
def freshReader (answers : List PullAnswer) : State :=
  { State.reset with reader := ReaderUnit.constructed 0, source := { answers := answers, pulls := 0 } }

/-- The reader that an R.NEW with an illegal count makes FAULTED (R151). -/
def faultedByRNew : State := { State.reset with reader := { ReaderUnit.reset with rstate := .faulted } }

/-- The writer that has accepted n zero bits since W.NEW, n at most 7 (R211), with the sink's answers. -/
def afterZeroBits (n : Nat) (answers : List PushAnswer) : State :=
  { State.reset with
    writer := { WriterUnit.constructed with count := BitVec.ofNat 64 n, wcur := BitVec.ofNat 3 (7 - n) }
    sink := { answers := answers, pushed := [] } }

/-- The writer that has accepted a zero bit, sealed by a W.FLUSH (R221). -/
def sealedWriter : State :=
  { afterZeroBits 1 [] with writer := { (afterZeroBits 1 []).writer with sealed := true } }

theorem rRead_reached {st : Status} (h : statusAllowed .rRead st = true) : Reached .rRead st := by
  cases st with
  | ok => exact ⟨freshReader [.byte 0, .exhausted], _, .ok false 0, rfl, rfl, rfl⟩
  | exhausted => exact ⟨freshReader [.exhausted], _, .exhausted, rfl, rfl, rfl⟩
  | ioError => exact ⟨freshReader [.failed 0], _, .ioError 0, rfl, rfl, rfl⟩
  | preconditionViolation => exact ⟨faultedByRNew, _, .preconditionViolation, rfl, rfl, rfl⟩
  | noInstance => exact ⟨State.reset, _, .noInstance, rfl, rfl, rfl⟩
  | misuse | illegalCommand => cases h

theorem wNew_reached {st : Status} (h : statusAllowed .wNew st = true) : Reached .wNew st := by
  cases st with
  | ok => exact ⟨State.reset, _, .done, rfl, rfl, rfl⟩
  | exhausted | ioError | preconditionViolation | misuse | illegalCommand | noInstance => cases h

theorem wWrite_reached (v : Int) {st : Status} (h : statusAllowed (.wWrite v) st = true) :
    Reached (.wWrite v) st := by
  cases st with
  | ok => exact ⟨afterZeroBits 0 [], _, .done, rfl, rfl, rfl⟩
  | ioError => exact ⟨afterZeroBits 7 [.failed 0], _, .ioError 0, rfl, rfl, rfl⟩
  | misuse => exact ⟨sealedWriter, _, .misuse, rfl, rfl, rfl⟩
  | noInstance => exact ⟨State.reset, _, .noInstance, rfl, rfl, rfl⟩
  | exhausted | preconditionViolation | illegalCommand => cases h

theorem wFlush_reached {st : Status} (h : statusAllowed .wFlush st = true) : Reached .wFlush st := by
  cases st with
  | ok => exact ⟨afterZeroBits 0 [], _, .done, rfl, rfl, rfl⟩
  | ioError => exact ⟨afterZeroBits 1 [.failed 0], _, .ioError 0, rfl, rfl, rfl⟩
  | noInstance => exact ⟨State.reset, _, .noInstance, rfl, rfl, rfl⟩
  | exhausted | preconditionViolation | misuse | illegalCommand => cases h

theorem wCount_reached {st : Status} (h : statusAllowed .wCount st = true) : Reached .wCount st := by
  cases st with
  | ok => exact ⟨afterZeroBits 3 [], _, .ok false 3, rfl, rfl, rfl⟩
  | noInstance => exact ⟨State.reset, _, .noInstance, rfl, rfl, rfl⟩
  | exhausted | ioError | preconditionViolation | misuse | illegalCommand => cases h

/-- The operand of R.NEW selects its status: 0 constructs, 8 is refused (R151). -/
theorem rNew_reached {st : Status} (h : statusAllowed (.rNew 0) st = true) : ∃ n, Reached (.rNew n) st := by
  cases st with
  | ok => exact ⟨0, State.reset, _, .done, rfl, rfl, rfl⟩
  | preconditionViolation => exact ⟨8, State.reset, _, .preconditionViolation, rfl, rfl, rfl⟩
  | exhausted | ioError | misuse | illegalCommand | noInstance => cases h

/-- Every check mark of a command whose operand, if any, does not select its status (R257). -/
theorem reached_of_statusAllowed {i : Instr} {st : Status} (hne : ∀ t, i ≠ .rNew t)
    (h : statusAllowed i st = true) : Reached i st := by
  cases i with
  | rNew t => exact absurd rfl (hne t)
  | rRead => exact rRead_reached h
  | wNew => exact wNew_reached h
  | wWrite v => exact wWrite_reached v h
  | wFlush => exact wFlush_reached h
  | wCount => exact wCount_reached h

/-- Code 7 is never produced (R119). -/
theorem code_ne_seven (st : Status) : st.code ≠ 7 := by
  cases st <;> decide

/-- Settles O55: every response is one that `MayAnswer` describes, and each check mark has a run that reaches it. -/
theorem statusesOfEveryCommand : Obligations.StatusesOfEveryCommand := by
  refine ⟨fun i s t r h hr => (exec_answersOnly h r hr).status,
    fun a s r hr => (answerPull_answersOnly a s r hr).status, fun a s r hr => ?_,
    fun p w s t r hillegal h => illegal_answersOnly hillegal h r,
    fun i st => reached_of_statusAllowed, fun st h => ?_, fun r => code_ne_seven r.status⟩
  · exact answerPush_answersOnly
      (ok := fun r => statusAllowed .wFlush r.status = true ∧ ∀ v, statusAllowed (.wWrite v) r.status = true)
      a s ⟨rfl, fun _ => rfl⟩ (fun _ => ⟨rfl, fun _ => rfl⟩) r hr
  · exact rNew_reached h

end Sys2Proof.Machine

/-! # Power-on reset, and the registers that it leaves unspecified -/

namespace Sys2Proof.Machine

/-! ### The reset step -/

theorem step_powerOnReset {s : State} {rest : List Input} (h : s.inputs = .powerOnReset :: rest) :
    step s = .next (powerOn { s with inputs := rest }) :=
  step_of_head h rfl

/-- Settles O13: the reset puts both units in their reset state, of which neither has a command in progress. -/
theorem powerOnResetUnconstructs : Obligations.PowerOnResetUnconstructs := by
  intro s rest hinputs
  exact ⟨_, step_powerOnReset hinputs, rfl, rfl, rfl, rfl, rfl, rfl, rfl, rfl, rfl⟩

/-- An answer that finds no transaction outstanding is ignored (R293). -/
theorem deliver_answer_idle {s : State} {e : Input} (he : (∃ a, e = .pullAnswer a) ∨ ∃ a, e = .pushAnswer a)
    (hreader : s.reader.pending = none) (hwriter : s.writer.pending = none) : deliver e s = .next s := by
  rcases he with ⟨a, rfl⟩ | ⟨a, rfl⟩
  · simp [deliver, answerPull, hreader]
  · simp [deliver, answerPush, hwriter]

/-- Settles O14: neither unit has a transaction outstanding after the reset. -/
theorem answerAfterResetIsIgnored : Obligations.AnswerAfterResetIsIgnored := by
  intro s rest e he hinputs
  have htakes : takes (powerOn { s with inputs := e :: rest }) e = true := by
    rcases he with ⟨a, rfl⟩ | ⟨a, rfl⟩ <;> rfl
  refine ⟨_, step_powerOnReset hinputs, ?_⟩
  rw [step_of_head (rest := rest) rfl htakes, deliver_answer_idle he rfl rfl]

/-- Settles O15: the reset state is what power-on reset makes of itself, and power-on reset brings the invariant. -/
theorem invariantAtReset : Obligations.InvariantAtReset := powerOn_inv State.reset

/-! ### Units that differ in unread registers only -/

section
variable {r r' : ReaderUnit} (h : r.Alike r')
include h

theorem ReaderUnit.Alike.rstate_eq : r'.rstate = r.rstate := by
  rcases h with rfl | ⟨_, heq, _⟩
  · rfl
  · exact heq

theorem ReaderUnit.Alike.pending_eq : r'.pending = r.pending := by
  rcases h with rfl | ⟨_, _, hidle, hidle'⟩
  · rfl
  · rw [hidle, hidle']

theorem ReaderUnit.Alike.refusal_eq : readerRefusal r' = readerRefusal r := by
  rw [readerRefusal, readerRefusal, h.rstate_eq]

/-- Only an ACTIVE reader passes the lifecycle check, and of that no register may differ (R152). -/
theorem ReaderUnit.Alike.eq_of_not_refused (hpasses : readerRefusal r = none) : r' = r :=
  h.resolve_right fun hdiffer => hdiffer.1 (readerRefusal_eq_none.mp hpasses)

theorem ReaderUnit.Alike.ended : ReaderUnit.Alike { r with pending := none } { r' with pending := none } := by
  rcases h with rfl | ⟨hstate, heq, _⟩
  · exact .inl rfl
  · exact .inr ⟨hstate, heq, rfl, rfl⟩

theorem ReaderUnit.Alike.faulted :
    ReaderUnit.Alike { r with rstate := .faulted } { r' with rstate := .faulted } := by
  rcases h with rfl | ⟨_, _, hidle, hidle'⟩
  · exact .inl rfl
  · exact .inr ⟨by simp, rfl, hidle, hidle'⟩

end

section
variable {w w' : WriterUnit} (h : w.Alike w')
include h

theorem WriterUnit.Alike.wstate_eq : w'.wstate = w.wstate := by
  rcases h with rfl | ⟨_, heq, _⟩
  · rfl
  · exact heq

theorem WriterUnit.Alike.pending_eq : w'.pending = w.pending := by
  rcases h with rfl | ⟨_, _, hidle, hidle'⟩
  · rfl
  · rw [hidle, hidle']

theorem WriterUnit.Alike.refusal_eq : writerRefusal w' = writerRefusal w := by
  rw [writerRefusal, writerRefusal, h.wstate_eq]

/-- Only an ACTIVE writer passes the lifecycle check, and of that no register may differ (R202). -/
theorem WriterUnit.Alike.eq_of_not_refused (hpasses : writerRefusal w = none) : w' = w :=
  h.resolve_right fun hdiffer => hdiffer.1 (writerRefusal_eq_none.mp hpasses)

theorem WriterUnit.Alike.ended : WriterUnit.Alike { w with pending := none } { w' with pending := none } := by
  rcases h with rfl | ⟨hstate, heq, _⟩
  · exact .inl rfl
  · exact .inr ⟨hstate, heq, rfl, rfl⟩

end

/-! ### What a unit does with registers that it reads

An operation that commutes with putting another state's other side in place takes two states whose unit is the same
to states that differ in that other side only. -/

theorem lookAheadAnswered_graftWriter (a : PullAnswer) (u s : State) :
    lookAheadAnswered a (graftWriter u s) = graftWriter u (lookAheadAnswered a s) :=
  surface_graftWriter u { s with reader := s.reader.latch a }

theorem answerPull_graftWriter (a : PullAnswer) (u s : State) :
    answerPull a (graftWriter u s) = graftWriter u (answerPull a s) := by
  have hreader : (graftWriter u s).reader = s.reader := rfl
  unfold answerPull
  rw [hreader]
  cases s.reader.pending with
  | none => rfl
  | some wait =>
    cases wait with
    | firstPull => exact firstPullAnswered_graftWriter a u { s with reader := { s.reader with pending := none } }
    | lookAhead => exact lookAheadAnswered_graftWriter a u { s with reader := { s.reader with pending := none } }

theorem answerPush_graftReader (a : PushAnswer) (u s : State) :
    answerPush a (graftReader u s) = graftReader u (answerPush a s) := by
  have hwriter : (graftReader u s).writer = s.writer := rfl
  unfold answerPush
  rw [hwriter]
  cases s.writer.pending with
  | none => rfl
  | some _ =>
    simp only [pushAnswered_eq]
    rfl

section
variable {s s' : State} (h : s.Alike s')
include h

/-- An operation that runs on any writer side keeps states alike whose reader is the same. -/
theorem State.Alike.run_reader {run : State → State} (hreader : s'.reader = s.reader)
    (hrun : ∀ u s, run (graftWriter u s) = graftWriter u (run s)) : (run s).Alike (run s') := by
  obtain ⟨_, hwriter, hsource, hsink, hreaderOut, hwriterOut, hinputs⟩ := h
  have hother : s' = graftWriter s' s := SameReaderSide.eq_graftWriter ⟨hreader, hsource, hreaderOut⟩
  have key : (run (graftWriter s s)).Alike (run (graftWriter s' s)) := by
    rw [hrun, hrun]
    exact ⟨.inl rfl, hwriter, rfl, hsink, rfl, hwriterOut, hinputs⟩
  rwa [← hother] at key

/-- An operation that runs on any reader side keeps states alike whose writer is the same. -/
theorem State.Alike.run_writer {run : State → State} (hwriter : s'.writer = s.writer)
    (hrun : ∀ u s, run (graftReader u s) = graftReader u (run s)) : (run s).Alike (run s') := by
  obtain ⟨hreader, _, hsource, hsink, hreaderOut, hwriterOut, hinputs⟩ := h
  have hother : s' = graftReader s' s := SameWriterSide.eq_graftReader ⟨hwriter, hsink, hwriterOut⟩
  have key : (run (graftReader s s)).Alike (run (graftReader s' s)) := by
    rw [hrun, hrun]
    exact ⟨hreader, .inl rfl, hsource, rfl, hreaderOut, rfl, hinputs⟩
  rwa [← hother] at key

/-! ### Every operation keeps alike states alike (R291) -/

theorem State.Alike.busy_eq (p : Port) : busy p s' = busy p s := by
  obtain ⟨hreader, hwriter, _⟩ := h
  cases p with
  | reader => rw [busy_reader_eq, busy_reader_eq, hreader.pending_eq]
  | writer => rw [busy_writer_eq, busy_writer_eq, hwriter.pending_eq]

theorem State.Alike.inputs_eq : s'.inputs = s.inputs := by
  obtain ⟨_, _, _, _, _, _, hinputs⟩ := h
  exact hinputs

theorem State.Alike.with_reader {r r' : ReaderUnit} (hr : r.Alike r') :
    State.Alike { s with reader := r } { s' with reader := r' } :=
  ⟨hr, h.2⟩

theorem State.Alike.with_writer {w w' : WriterUnit} (hw : w.Alike w') :
    State.Alike { s with writer := w } { s' with writer := w' } :=
  ⟨h.1, hw, h.2.2⟩

theorem State.Alike.with_inputs (inputs : List Input) :
    State.Alike { s with inputs := inputs } { s' with inputs := inputs } := by
  obtain ⟨hreader, hwriter, hsource, hsink, hreaderOut, hwriterOut, _⟩ := h
  exact ⟨hreader, hwriter, hsource, hsink, hreaderOut, hwriterOut, rfl⟩

theorem State.Alike.complete (p : Port) (r : Response) : (complete p r s).Alike (complete p r s') := by
  obtain ⟨hreader, hwriter, hsource, hsink, hreaderOut, hwriterOut, hinputs⟩ := h
  cases p with
  | reader => exact ⟨hreader.ended, hwriter, hsource, hsink, congrArg (· ++ [r]) hreaderOut, hwriterOut, hinputs⟩
  | writer => exact ⟨hreader, hwriter.ended, hsource, hsink, hreaderOut, congrArg (· ++ [r]) hwriterOut, hinputs⟩

theorem State.Alike.accept (p : Port) {run : State → State} (hrun : (run s).Alike (run s')) :
    (accept p s run).Alike (accept p s' run) := by
  rcases accept_cases p s run with ⟨hbusy, ha⟩ | ⟨hready, ha⟩ <;> rw [ha]
  · rwa [accept_busy run ((h.busy_eq p).trans hbusy)]
  · rwa [accept_ready run ((h.busy_eq p).trans hready)]

/-- A refused command reads RSTATE only (R152). -/
theorem State.Alike.onReader {run : State → State} (hrun : ∀ u s, run (graftWriter u s) = graftWriter u (run s)) :
    (onReader run s).Alike (onReader run s') := by
  unfold Machine.onReader
  rw [h.1.refusal_eq]
  cases hpasses : readerRefusal s.reader with
  | some refusal => exact h.complete .reader refusal
  | none => exact h.run_reader (h.1.eq_of_not_refused hpasses) hrun

/-- A refused command reads WSTATE only (R202). -/
theorem State.Alike.onWriter {run : State → State} (hrun : ∀ u s, run (graftReader u s) = graftReader u (run s)) :
    (onWriter run s).Alike (onWriter run s') := by
  unfold Machine.onWriter
  rw [h.2.1.refusal_eq]
  cases hpasses : writerRefusal s.writer with
  | some refusal => exact h.complete .writer refusal
  | none => exact h.run_writer (h.2.1.eq_of_not_refused hpasses) hrun

/-- R.NEW reads RSTATE only, and a construction writes every register (R151, R291). -/
theorem State.Alike.newReader (n : Int) : (newReader n s).Alike (newReader n s') := by
  unfold Machine.newReader
  rw [h.1.rstate_eq]
  cases s.reader.rstate with
  | faulted => exact h.complete .reader _
  | unconstructed | active =>
    cases trashCount n with
    | none => exact (h.with_reader h.1.faulted).complete .reader _
    | some trash => exact (h.with_reader (.inl rfl)).complete .reader _

theorem State.Alike.effect (i : Instr) : (effect i s).Alike (effect i s') := by
  cases i with
  | rNew n => exact h.newReader n
  | rRead => exact h.onReader readBit_graftWriter
  | wNew => exact (h.with_writer (.inl rfl)).complete .writer .done
  | wWrite v => exact h.onWriter (acceptBit_graftReader v)
  | wFlush => exact h.onWriter flushPartial_graftReader
  | wCount => exact h.onWriter (run := fun s => Machine.complete .writer (.ok false s.writer.count) s) fun _ _ => rfl

theorem State.Alike.answerPull (a : PullAnswer) : (answerPull a s).Alike (answerPull a s') := by
  rcases h.1 with hsame | ⟨_, _, hidle, hidle'⟩
  · exact h.run_reader hsame (answerPull_graftWriter a)
  · rwa [Machine.answerPull, Machine.answerPull, hidle, hidle']

theorem State.Alike.answerPush (a : PushAnswer) : (answerPush a s).Alike (answerPush a s') := by
  rcases h.2.1 with hsame | ⟨_, _, hidle, hidle'⟩
  · exact h.run_writer hsame (answerPush_graftReader a)
  · rwa [Machine.answerPush, Machine.answerPush, hidle, hidle']

theorem State.Alike.powerOn : (powerOn s).Alike (powerOn s') :=
  ⟨.inl rfl, .inl rfl, h.2.2⟩

/-! ### Alike states stay alike in every step and every run -/

theorem exec_alike {i : Instr} {t : State} (ht : exec i s = .next t) : ∃ t', exec i s' = .next t' ∧ t.Alike t' := by
  rw [exec_eq_accept] at ht
  obtain rfl := Host.Outcome.next.inj ht
  exact ⟨_, exec_eq_accept i s', h.accept i.port (h.effect i)⟩

theorem runWord_alike {p : Port} {w : Word} {t : State} (ht : runWord p w s = .next t) :
    ∃ t', runWord p w s' = .next t' ∧ t.Alike t' := by
  unfold runWord at ht ⊢
  cases hd : decode p w with
  | ok i =>
    rw [hd] at ht
    exact exec_alike h ht
  | error _ =>
    rw [hd] at ht
    obtain rfl := Host.Outcome.next.inj ht
    exact ⟨_, rfl, h.accept p (h.complete p .illegalCommand)⟩

theorem deliver_alike {e : Input} {t : State} (ht : deliver e s = .next t) :
    ∃ t', deliver e s' = .next t' ∧ t.Alike t' := by
  cases e with
  | command p w => exact runWord_alike h ht
  | pullAnswer a => exact ⟨_, rfl, Host.Outcome.next.inj ht ▸ h.answerPull a⟩
  | pushAnswer a => exact ⟨_, rfl, Host.Outcome.next.inj ht ▸ h.answerPush a⟩
  | powerOnReset => exact ⟨_, rfl, Host.Outcome.next.inj ht ▸ h.powerOn⟩

theorem takes_alike (e : Input) : takes s' e = takes s e := by
  cases e with
  | command p w => exact congrArg (!·) (h.busy_eq p)
  | pullAnswer _ | pushAnswer _ | powerOnReset => rfl

theorem nextInput_alike (inputs : List Input) : nextInput s' inputs = nextInput s inputs := by
  induction inputs with
  | nil => rfl
  | cons e rest ih => rw [nextInput, nextInput, takes_alike h, ih]

theorem step_alike {t : State} (ht : step s = .next t) : ∃ t', step s' = .next t' ∧ t.Alike t' := by
  unfold step advance at ht ⊢
  rw [h.inputs_eq, nextInput_alike h]
  cases hfound : nextInput s s.inputs with
  | none =>
    rw [hfound] at ht
    exact ⟨s', rfl, Host.Outcome.next.inj ht ▸ h⟩
  | some found =>
    rw [hfound] at ht
    exact deliver_alike (s := { s with inputs := found.2 }) (h.with_inputs found.2) ht

end

theorem run_succ (n : Nat) {s t : State} (h : step s = .next t) :
    Host.Core.run Sys2Proof.core (n + 1) s = Host.Core.run Sys2Proof.core n t := by
  have hcore : Host.Core.step Sys2Proof.core s = .next t := h
  simp only [Host.Core.run, hcore]

theorem run_alike (n : Nat) {s s' t : State} (h : s.Alike s') (ht : Host.Core.run Sys2Proof.core n s = .next t) :
    ∃ t', Host.Core.run Sys2Proof.core n s' = .next t' ∧ t.Alike t' := by
  induction n generalizing s s' with
  | zero => exact ⟨s', rfl, Host.Outcome.next.inj ht ▸ h⟩
  | succ n ih =>
    obtain ⟨u, hu⟩ := step_next s
    obtain ⟨u', hu', halike⟩ := step_alike h hu
    rw [run_succ n hu] at ht
    rw [run_succ n hu']
    exact ih halike ht

/-- Settles O60: two UNCONSTRUCTED units are alike whatever their other registers hold, and every run keeps them so. -/
theorem unspecifiedResetValuesAreUnobserved : Obligations.UnspecifiedResetValuesAreUnobserved := by
  refine ⟨fun s r r' w w' n t hr hr' hidle hidle' hw hw' hready hready' h => ?_,
    fun _ _ _ h => step_alike h, fun _ _ _ _ h => exec_alike h⟩
  have hreader : r.Alike r' := .inr ⟨by simp [hr], hr'.trans hr.symm, hidle, hidle'⟩
  have hwriter : w.Alike w' := .inr ⟨by simp [hw], hw'.trans hw.symm, hready, hready'⟩
  obtain ⟨t', hrun, hreader', hwriter', hsource, hsink, hreaderOut, hwriterOut, hinputs⟩ :=
    run_alike n (s := { s with reader := r, writer := w }) (s' := { s with reader := r', writer := w' })
      ⟨hreader, hwriter, rfl, rfl, rfl, rfl, rfl⟩ h
  exact ⟨t', hrun, hreaderOut, hwriterOut, hsource, hsink, hinputs, hreader'.rstate_eq, hwriter'.wstate_eq⟩

end Sys2Proof.Machine

/-! # The round trip: bits written, flushed and read back (R304) -/

namespace Sys2Proof.Machine

/-! ### The bytes of a flushed sequence of bits -/

/-- The bits that a flush makes whole bytes of: those written, and the padding (R304). -/
def padded (bits : List Bool) : List Bool := bits ++ List.replicate (paddingOf bits.length) false

theorem padded_length (bits : List Bool) : (padded bits).length = bits.length + paddingOf bits.length := by
  rw [padded, List.length_append, List.length_replicate]

theorem eight_dvd_padded_length (bits : List Bool) : 8 ∣ (padded bits).length := by
  rw [padded_length, paddingOf]
  omega

/-- Zero bits behind the others leave the byte as it is. -/
theorem placeBits_append_zeros (i n : Nat) (bits : List Bool) :
    placeBits i (bits ++ List.replicate n false) = placeBits i bits := by
  induction n with
  | zero => rw [List.replicate_zero, List.append_nil]
  | succ n ih => rw [List.replicate_succ', ← List.append_assoc, placeBits_snoc, ih]; simp

/-- Without bits left over the padding is none. -/
theorem wholeBytes_padded_of_none {bits : List Bool} (h : leftover bits = []) :
    wholeBytes (padded bits) = wholeBytes bits := by
  have hmod : bits.length % 8 = 0 := by rw [← leftover_length, h, List.length_nil]
  rw [padded, paddingOf, hmod, List.replicate_zero, List.append_nil]

/-- The bits left over and the padding are one more byte, that of the bits left over. -/
theorem wholeBytes_padded_of_some {bits : List Bool} (h : leftover bits ≠ []) :
    wholeBytes (padded bits) = wholeBytes bits ++ [placeBits 7 (leftover bits)] := by
  have hlen := leftover_length bits
  have hpos := List.length_pos_of_ne_nil h
  have height : (leftover bits ++ List.replicate (paddingOf bits.length) false).length = 8 := by
    rw [List.length_append, List.length_replicate, paddingOf]
    omega
  rw [padded, wholeBytes_append, ← placeBits_append_zeros 7 (paddingOf bits.length),
    ← List.append_nil (leftover bits ++ _), wholeBytes_of_eight [] height, List.append_nil]
  rfl

theorem bitsOf_placeBits_of_eight {bits : List Bool} (h : bits.length = 8) : bitsOf (placeBits 7 bits) = bits := by
  refine List.ext_getElem? fun n => ?_
  by_cases hn : n < 8
  · match bits, h with
    | [b7, b6, b5, b4, b3, b2, b1, b0], _ =>
      rw [bitsOf_getElem? hn]
      exact (placeBits_getLsbD b7 b6 b5 b4 b3 b2 b1 b0 ⟨n, hn⟩).symm
  · rw [List.getElem?_eq_none (by simpa [bitsOf] using hn), List.getElem?_eq_none (by omega)]

/-- The bits of the whole bytes are the bits they were made of, when none is left over (R8). -/
theorem flatMap_bitsOf_wholeBytes {bits : List Bool} (h : 8 ∣ bits.length) :
    (wholeBytes bits).flatMap bitsOf = bits := by
  obtain ⟨n, hn⟩ := h
  induction n generalizing bits with
  | zero => rw [List.length_eq_zero_iff.mp hn]; rfl
  | succ n ih =>
    obtain ⟨first, rest, rfl, hfirst⟩ : ∃ first rest, bits = first ++ rest ∧ first.length = 8 :=
      ⟨bits.take 8, bits.drop 8, (List.take_append_drop 8 bits).symm, by simp; omega⟩
    rw [List.length_append] at hn
    rw [wholeBytes_of_eight rest hfirst, List.flatMap_cons, bitsOf_placeBits_of_eight hfirst, ih (by omega)]

/-- What is read from the bytes of a flushed sequence of bits with τ trash bits (R169). -/
theorem streamBits_padded (bits : List Bool) (τ : Nat) :
    streamBits (wholeBytes (padded bits)) τ = (padded bits).take (8 * (wholeBytes (padded bits)).length - τ) := by
  rw [streamBits, flatMap_bitsOf_wholeBytes (eight_dvd_padded_length bits)]

theorem wholeBytes_padded_length (bits : List Bool) :
    8 * (wholeBytes (padded bits)).length = bits.length + paddingOf bits.length := by
  rw [← flatMap_bitsOf_length, flatMap_bitsOf_wholeBytes (eight_dvd_padded_length bits), padded_length]

/-! ### Writing and flushing -/

/-- A writer that packs bits packs those of a W.BITS behind them (R122, R211). -/
theorem runAll_wBits_packed (new : List Bool) (rest : List Instr) {sink : SinkPort} {bits : List Bool} {s : State}
    (h : Packed sink bits s) (hanswers : (bits.length + new.length) / 8 ≤ sink.answers.length) :
    ∃ t, runAll (wBits new ++ rest) s = runAll rest t ∧ Packed sink (bits ++ new) t := by
  induction new generalizing bits s with
  | nil => exact ⟨s, rfl, by rwa [List.append_nil]⟩
  | cons c new ih =>
    rw [List.length_cons] at hanswers
    obtain ⟨u, hexec, hu⟩ := exec_wWrite_packed h (if c then 1 else 0) (by omega)
    rw [operandBit_writeBit] at hu
    obtain ⟨t, hrun, ht⟩ := ih hu (by simp; omega)
    refine ⟨t, ?_, by rwa [List.append_assoc] at ht⟩
    exact (runAll_cons (i := writeBit c) _ h.filling.ready hexec hu.filling.ready).trans hrun

/-- A W.FLUSH of an accepting sink makes the bytes pushed those of the bits with the padding (R221, R222). -/
theorem exec_wFlush_packed {sink : SinkPort} {bits : List Bool} {s : State} (h : Packed sink bits s)
    (hanswers : bits.length / 8 < sink.answers.length) :
    ∃ t, exec .wFlush s = .next t ∧ t.writer.pending = none ∧
      t.sink.pushed = sink.pushed ++ wholeBytes (padded bits) := by
  obtain ⟨hfill, _, hsink⟩ := h
  by_cases hnone : leftover bits = []
  · refine ⟨_, wFlushAtBoundaryDoesNothing s hfill.idle hfill.active (Filling.wcur_nil (hnone ▸ hfill)),
      hfill.idle, ?_⟩
    rw [wholeBytes_padded_of_none hnone]
    exact congrArg SinkPort.pushed hsink
  · have hcur : s.writer.wcur ≠ 7#3 := fun hc => hnone (by simpa [hc] using hfill.wcur)
    have hnext : s.sink.answers = sink.answers[bits.length / 8] :: sink.answers.drop (bits.length / 8 + 1) := by
      rw [hsink, List.drop_eq_getElem_cons hanswers]
    refine ⟨_, (exec_wFlush_partial hfill.idle hfill.active hcur).trans
      (congrArg _ (push_ends _ (by exact hfill.idle) hnext)), hfill.idle, ?_⟩
    rw [wholeBytes_padded_of_some hnone, hsink, hfill.scr, List.append_assoc]

/-- W.NEW, the W.WRITEs of some bits and W.FLUSH push the bytes of the bits with the padding (R304). -/
theorem runAll_write_flush {bits : List Bool} {s : State} (hidle : s.writer.pending = none)
    (hanswers : bits.length / 8 < s.sink.answers.length) :
    ∃ t, runAll (.wNew :: wBits bits ++ [.wFlush]) s = .next t ∧
      t.sink.pushed = s.sink.pushed ++ wholeBytes (padded bits) := by
  have hnew := constructed_packed s
  obtain ⟨u, hwrites, hu⟩ := runAll_wBits_packed bits [.wFlush] hnew (by simp; omega)
  rw [List.nil_append] at hu
  obtain ⟨t, hflush, hready, ht⟩ := exec_wFlush_packed hu hanswers
  refine ⟨t, ?_, ht⟩
  calc runAll (.wNew :: wBits bits ++ [.wFlush]) s
      = runAll (wBits bits ++ [.wFlush]) (complete .writer .done { s with writer := WriterUnit.constructed }) :=
        runAll_cons (i := .wNew) _ (congrArg Option.isSome hidle) (execWNew_ready hidle) hnew.filling.ready
    _ = runAll [.wFlush] u := hwrites
    _ = .next t := runAll_cons (i := .wFlush) [] hu.filling.ready hflush (congrArg Option.isSome hready)

/-! ### Reading back -/

/-- Beyond the bits of a stream the R.READs of a source that stays exhausted report EXHAUSTED (R169). -/
theorem runAll_read_back {τ extra : Nat} {bytes : List Byte} {u : State} (hτ : τ ≤ 7)
    (hidle : u.reader.pending = none) (hnew : u.reader.rstate ≠ .faulted)
    (hsource : u.source.answers =
      bytes.map PullAnswer.byte ++ List.replicate (8 * bytes.length + extra + 1) PullAnswer.exhausted) :
    ∃ v, runAll (.rNew τ :: List.replicate (8 * bytes.length - τ + extra) .rRead) u = .next v ∧
      v.readerOut = u.readerOut ++ [.ok false 0] ++ (streamBits bytes τ).map (fun b => Response.ok b 0) ++
        List.replicate extra Response.exhausted := by
  set k := 8 * bytes.length - τ with hk
  have hmore : 8 * bytes.length + extra + 1 = (k + extra + 1) + (8 * bytes.length - k) := by omega
  rw [hmore, List.replicate_add, ← List.append_assoc] at hsource
  obtain ⟨v, hrun, hout⟩ := finiteStreamBitSequence τ (k + extra) bytes _ u hτ hidle hnew hsource
  have hlen : (streamBits bytes τ).length = k := streamBits_length bytes τ
  rw [List.take_of_length_le (by omega), hlen, Nat.add_sub_cancel_left] at hout
  exact ⟨v, hrun, hout⟩

/-- Settles O58: the bytes pushed hold the bits and the padding, and the trash count says how many of them to leave. -/
theorem roundTripNeedsMatchedPadding : Obligations.RoundTripNeedsMatchedPadding := by
  intro bits s rest hidle hsink
  obtain ⟨t, hrun, hpushed⟩ := runAll_write_flush (bits := bits) hidle (by simp [hsink]; omega)
  have hbytes := wholeBytes_padded_length bits
  refine ⟨t, wholeBytes (padded bits), hrun, hpushed, hbytes, fun τ extra u hτ hready hnew hsource => ?_⟩
  obtain ⟨v, hread, hout⟩ := runAll_read_back hτ hready hnew hsource
  have hsurfaced := streamBits_padded bits τ
  refine ⟨v, _, hread, hout, hsurfaced, ?_, fun hpos hsame => ?_⟩
  · rintro rfl
    rw [hsurfaced, hbytes, Nat.add_sub_cancel, padded, List.take_left]
  · have hlen := streamBits_length (wholeBytes (padded bits)) τ
    rw [hsame] at hlen
    omega

end Sys2Proof.Machine

/-! # The step that takes a command word -/

namespace Sys2Proof.Machine

/-! ### The patterns of the opcode map -/

/-- A word decodes to the well-formed command that it encodes (R112). -/
theorem decode_of_encode_eq {i : Instr} {w : Word} (hi : i.wellFormed = true) (hw : encode i = w) :
    decode i.port w = .ok i :=
  hw ▸ decodeOfEncodeIsIdentity i hi

/-- Settles O4: each word is the encoding of its command, and the decoder reads encodings back. -/
theorem wordsFromThePatternsDecode : Obligations.WordsFromThePatternsDecode :=
  ⟨decode_of_encode_eq (i := .rNew 3) rfl rfl, decode_of_encode_eq (i := .rNew 255) rfl rfl,
    decode_of_encode_eq (i := .rRead) rfl rfl, decode_of_encode_eq (i := .wNew) rfl rfl,
    decode_of_encode_eq (i := .wWrite 1) rfl rfl, decode_of_encode_eq (i := .wFlush) rfl rfl,
    decode_of_encode_eq (i := .wCount) rfl rfl⟩

/-! ### The word at the head of the inputs -/

/-- A word that decodes is run as its command (R123). -/
theorem runWord_of_decode {p : Port} {w : Word} {i : Instr} (s : State) (h : decode p w = .ok i) :
    runWord p w s = exec i s := by
  rw [runWord, h]

/-- Settles O7: a ready port takes the word at the head, and a word that decodes is run as its command. -/
theorem stepRunsTheDecodedCommand : Obligations.StepRunsTheDecodedCommand := by
  intro s p w i rest hinputs hready hdecode
  have htakes : takes s (.command p w) = true := by simp [takes, hready]
  rw [step_of_head hinputs htakes]
  exact runWord_of_decode _ hdecode

/-! ### The word that is placed for the next step (log 11) -/

theorem busy_freePort (p : Port) (s : State) : busy p (freePort p s) = false := by
  cases p <;> rfl

/-- All 16 bits of a word are placed. -/
theorem withFetchWord_toNat (s : State) (w : Word) : s.withFetchWord 16 w.toNat = offerWord w s := by
  rw [State.withFetchWord, Nat.mod_eq_of_lt w.isLt, BitVec.ofNat_toNat, BitVec.setWidth_eq]

/-- Settles O8: the word is placed at the head of a ready port, and the step that takes it leaves the other inputs. -/
theorem fetchedWordIsRunNext : Obligations.FetchedWordIsRunNext := by
  intro s w i hdecode
  have hready : busy (portOf w) (offerWord w s) = false :=
    (busy_inputs (portOf w) (freePort (portOf w) s) _).trans (busy_freePort (portOf w) s)
  rw [withFetchWord_toNat]
  exact stepRunsTheDecodedCommand (offerWord w s) (portOf w) w i _ rfl hready hdecode

/-! ### No input -/

/-- Settles O11: without inputs there is none to take. -/
theorem waitingCoreIsUnchanged : Obligations.WaitingCoreIsUnchanged := by
  intro s hinputs
  have hnone : nextInput s s.inputs = none := by rw [hinputs, nextInput]
  exact step_of_nextInput_none hnone

end Sys2Proof.Machine
